-- ==== Sys2Proof/Word.lean ====
section
/-! DEFINITION. The widths the spec uses: a byte, a 16-bit header word, a 32-bit register (`00_scope.md` R12, R13). -/

namespace Sys2Proof

/-- A byte, bit 7 most significant (R13). -/
abbrev Byte := BitVec 8

/-- A 16-bit header word (R93). -/
abbrev Half := BitVec 16

/-- A 32-bit host register or command word (R12, R61). -/
abbrev Word := BitVec 32

end Sys2Proof
end

