-- ==== Sys2Proof/Syntax.lean ====
section
/-! DEFINITION. The commands a host writes to `CMD`: the rows of the opcode table (`30_encoding.md` R118). -/

namespace Sys2Proof

/-- One constructor per row of spec/opcode_table.json. A command has no operand (R92). -/
inductive Instr where
  /-- `0x00000000`, R232. -/
  | nop
  /-- `0x00000001`, R233. -/
  | start
  /-- `0x00000002`, R234. -/
  | step
  /-- `0x00000003`, R235. -/
  | stop
  /-- `0x00000004`, R236. -/
  | sreset
  deriving DecidableEq, Repr

end Sys2Proof
end

