-- ==== Sys2Proof/Config.lean ====
section
/-! DEFINITION. The configuration of one block (`00_scope.md` R5 to R12) and the free values the spec leaves open. -/

namespace Sys2Proof

/-- The parameters fixed when the block is built (R20 part 1). Natural numbers, so that a configuration outside its
ranges can be written down and refused (R271). `SCID`, `VCID`, `BASE` and `PACE` are OPEN: they have no default. -/
structure Config where
  /-- `FRAME_LEN`, default 1115 (R5). -/
  frameLen : Nat := 1115
  /-- `SCID` (R6). -/
  scid : Nat
  /-- `VCID` (R7). -/
  vcid : Nat
  /-- `TFVN`, default `0b01` (R8). -/
  tfvn : Nat := 1
  /-- `IDLE_APID`, default `0x7FF` (R9). -/
  idleApid : Nat := 0x7FF
  /-- `BASE`, the address of the register window (R12). -/
  base : Nat
  /-- `PACE`, in time units of the platform; nothing measures it (R12, R198). -/
  pace : Nat
  deriving DecidableEq, Repr

/-- Why a configuration is refused: the parameter that is outside its constraint (R271). -/
inductive ConfigError where
  | frameLen
  | scid
  | vcid
  | tfvn
  | idleApid
  | base
  | pace
  deriving DecidableEq, Repr

/-- DESIGN CHOICE (log 2): the configuration of `State.reset`. The OPEN parameters take the example values of
`95_test_vectors.md` (`SCID`, `VCID`), `BASE` 0 and `PACE` 1; the others their spec defaults. No statement rests on it. -/
def Config.example : Config where
  scid := 0x2A
  vcid := 1
  base := 0
  pace := 1

/-- FREE VALUE (log 6): byte `i` of what a buffer holds after the reset numbered `n`. The spec leaves it open (R41, R281). -/
opaque Config.freeByte : Nat → Nat → Byte

/-- FREE VALUE (log 6): the length of `PKT_BUF` after the reset numbered `n`, less 7 (R34 bounds it: 7 to 65542). -/
opaque Config.freePktLen : Nat → Fin 65536

end Sys2Proof
end

