-- ==== Sys2Proof/WellFormed.lean ====
section
/-! DEFINITION. What is well formed: a command (always: it has no operand, R92) and a configuration (R5 to R12, R271). -/

namespace Sys2Proof

/-- Every command is well formed: no row of the opcode table has an operand field (R92, R118). -/
def Instr.WellFormed : Instr → Bool
  | .nop => true
  | .start => true
  | .step => true
  | .stop => true
  | .sreset => true

/-- The constraints of R5 to R9 and R12. A configuration that breaks one is refused (R271). -/
abbrev Config.Legal (c : Config) : Prop :=
  (22 ≤ c.frameLen ∧ c.frameLen ≤ 65535) ∧ c.scid ≤ 255 ∧ c.vcid ≤ 63 ∧ c.tfvn ≤ 3 ∧ c.idleApid ≤ 2047 ∧
    c.base % 4 = 0 ∧ 0 < c.pace

end Sys2Proof
end

