-- ==== Sys2Proof/Decode.lean ====
section
/-! DEFINITION. The command decoder and encoder (`30_encoding.md` R91, R92, R118, R119; `44_host_commands.md` R229). -/

namespace Sys2Proof

/-- One row of spec/opcode_table.json: a word `v` is this command when `v &&& mask = value`. -/
structure OpcodeRow where
  mnemonic : String
  value : Word
  mask : Word
  instr : Instr
  deriving DecidableEq, Repr

/-- The opcode table (R118). Every row compares the whole word. -/
def opcodeTable : List OpcodeRow :=
  [ ⟨"NOP", 0x00000000, 0xFFFFFFFF, .nop⟩,
    ⟨"START", 0x00000001, 0xFFFFFFFF, .start⟩,
    ⟨"STEP", 0x00000002, 0xFFFFFFFF, .step⟩,
    ⟨"STOP", 0x00000003, 0xFFFFFFFF, .stop⟩,
    ⟨"SRESET", 0x00000004, 0xFFFFFFFF, .sreset⟩ ]

/-- The field `OP` of a command word, `v[7:0]` (R91). -/
def cmdOp (v : Word) : BitVec 8 := v.extractLsb' 0 8

/-- The field `RSV` of a command word, `v[31:8]` (R91). -/
def cmdRsv (v : Word) : BitVec 24 := v.extractLsb' 8 24

/-- Why a command word is illegal (R119). -/
inductive DecodeError where
  /-- `RSV` is not 0: illegal whatever `OP` is (R92). -/
  | reservedBits
  /-- `RSV` is 0 and `OP` is in `0x05 .. 0xFF`. -/
  | reservedOpcode
  deriving DecidableEq, Repr

/-- Whether `v` matches a row of the opcode table. -/
def OpcodeRow.matches (r : OpcodeRow) (v : Word) : Bool := v &&& r.mask == r.value

/-- Command decode (R229): the row the whole word matches, else the word is illegal, by name. -/
def decode (v : Word) : Except DecodeError Instr :=
  match opcodeTable.find? (·.matches v) with
  | some r => .ok r.instr
  | none => .error (if cmdRsv v = 0 then .reservedOpcode else .reservedBits)

/-- The value of `OP` in each command's word (R118). -/
def opcodeOf : Instr → BitVec 8
  | .nop => 0x00
  | .start => 0x01
  | .step => 0x02
  | .stop => 0x03
  | .sreset => 0x04

/-- The word of a command: `RSV = 0` above its opcode (R91, R118). -/
def encode (i : Instr) : Word := (0 : BitVec 24) ++ opcodeOf i

/-- The host's reading of the decoder: the command in a word of `nbits` bits, the bits above them 0. A command is one
32-bit word written whole (R71), so no byte order enters. -/
def decodeTableWord (nbits w : Nat) : Option Instr :=
  match decode (BitVec.ofNat 32 (w % 2 ^ nbits)) with
  | .ok i => some i
  | .error _ => none

end Sys2Proof
end

