-- ==== Sys2Proof/Machine/Build.lean ====
section
/-! DEFINITION. Building the block: the configuration check (`60_exceptions.md` R271). -/

namespace Sys2Proof.Machine

/-- The first parameter outside its constraint (R5 to R9, R12), or `none` when the block can be built. -/
def configProblem (c : Config) : Option ConfigError :=
  if c.frameLen < 22 ∨ c.frameLen > 65535 then some .frameLen
  else if c.scid > 255 then some .scid
  else if c.vcid > 63 then some .vcid
  else if c.tfvn > 3 then some .tfvn
  else if c.idleApid > 2047 then some .idleApid
  else if c.base % 4 ≠ 0 then some .base
  else if c.pace = 0 then some .pace
  else none

end Sys2Proof.Machine
end

