-- ==== Sys2Proof/Machine/Formats.lean ====
section
/-! DEFINITION. Byte sequences, big-endian fields and the fixed sizes (`00_scope.md` R10 to R16), and the space-packet
primary header (`30_encoding.md` R93 to R98). -/

namespace Sys2Proof.Machine

/-- `PH_LEN`, the packet header's length (R10). -/
abbrev phLen : Nat := 6
/-- `FH_LEN`, the frame's fixed header's length (R10). -/
abbrev fhLen : Nat := 8
/-- `MIN_IDLE`, the shortest idle packet (R10). -/
abbrev minIdle : Nat := 7
/-- `MAX_PKT`, the longest packet (R11). -/
abbrev maxPkt : Nat := 65542
/-- `SEQ_STANDALONE`, the sequence flags of an unsegmented packet (R110). -/
abbrev seqStandalone : Nat := 3

/-- `b[i:j]`, half-open (R13). -/
def slice (b : List Byte) (i j : Nat) : List Byte := (b.drop i).take (j - i)

/-- `zeros(n)` (R13). -/
def zeros (n : Nat) : List Byte := List.replicate n 0

/-- `v[hi:lo]` of a natural number (R13). -/
def bits (v hi lo : Nat) : Nat := v / 2 ^ lo % 2 ^ (hi + 1 - lo)

/-- The big-endian number in a byte sequence; `be16` and `be24` of R14 are this on 2 and on 3 bytes. -/
def be (b : List Byte) : Nat := b.foldl (fun acc x => acc * 256 + x.toNat) 0

/-- `put16(v) = [v[15:8], v[7:0]]` (R14). -/
def put16 (v : Nat) : List Byte := [BitVec.ofNat 8 (bits v 15 8), BitVec.ofNat 8 (bits v 7 0)]

/-- `put24(v) = [v[23:16], v[15:8], v[7:0]]` (R14). -/
def put24 (v : Nat) : List Byte :=
  [BitVec.ofNat 8 (bits v 23 16), BitVec.ofNat 8 (bits v 15 8), BitVec.ofNat 8 (bits v 7 0)]

/-- The record `hdr_fields` returns (R98). -/
structure PktHeader where
  version : BitVec 3
  type : BitVec 1
  shf : BitVec 1
  apid : BitVec 11
  seqFlags : BitVec 2
  seqCount : BitVec 14
  dataLen : BitVec 16
  deriving DecidableEq, Repr

/-- `hdr_fields(h)` for a 6-byte `h` (R94 to R96, R98, R130). -/
def hdrFields (h : List Byte) : PktHeader :=
  let w0 := be (slice h 0 2)
  let w1 := be (slice h 2 4)
  let w2 := be (slice h 4 6)
  { version := BitVec.ofNat 3 (bits w0 15 13)
    type := BitVec.ofNat 1 (bits w0 12 12)
    shf := BitVec.ofNat 1 (bits w0 11 11)
    apid := BitVec.ofNat 11 (bits w0 10 0)
    seqFlags := BitVec.ofNat 2 (bits w1 15 14)
    seqCount := BitVec.ofNat 14 (bits w1 13 0)
    dataLen := BitVec.ofNat 16 w2 }

/-- The 6 header bytes of a packet with these fields, first listed field most significant (R93 to R96). -/
def PktHeader.bytes (f : PktHeader) : List Byte :=
  put16 (f.version.toNat * 2 ^ 13 + f.type.toNat * 2 ^ 12 + f.shf.toNat * 2 ^ 11 + f.apid.toNat) ++
    put16 (f.seqFlags.toNat * 2 ^ 14 + f.seqCount.toNat) ++ put16 f.dataLen.toNat

end Sys2Proof.Machine
end

