-- ==== Sys2Proof/Machine/IdleGen.lean ====
section
/-! DEFINITION. The idle-packet generator `make_idle` (`41_idle_generator.md` R150 to R155; format R106 to R111). -/

namespace Sys2Proof.Machine

/-- What `make_idle` can report besides a packet (R150). -/
inductive IdleErr where
  /-- The length is below 7 or above `MAX_PKT` (R152, R153). -/
  | invalidLength
  deriving DecidableEq, Repr

/-- Idle header word 0: version, type and secondary-header flag 0, then `IDLE_APID` (R107, R108). -/
def idleWord0 (c : Config) : Nat := 0 * 2 ^ 13 + 0 * 2 ^ 12 + 0 * 2 ^ 11 + c.idleApid

/-- Idle header word 1: standalone, sequence count 0 (R109). -/
def idleWord1 : Nat := seqStandalone * 2 ^ 14 + 0

/-- `make_idle(L)` (R151). -/
def makeIdle (c : Config) (L : Nat) : Except IdleErr (List Byte) :=
  if L < minIdle then .error .invalidLength
  else if L > maxPkt then .error .invalidLength
  else .ok (put16 (idleWord0 c) ++ put16 idleWord1 ++ put16 (L - 7) ++ zeros (L - 6))

end Sys2Proof.Machine
end

