-- ==== Sys2Proof/Machine/Frame.lean ====
section
/-! DEFINITION. The fixed-length transfer-frame builder (`42_frame_builder.md` R170 to R180; format R99 to R105). -/

namespace Sys2Proof.Machine

/-- Why no frame is built (R174). -/
inductive BuildErr where
  /-- The packet and the 8-byte header exceed `FRAME_LEN` (R176). -/
  | tooLarge
  /-- Fewer than 7 bytes are left for the idle packet (R177). -/
  | idleShort
  deriving DecidableEq, Repr

/-- The ID word: `TFVN`, `SCID`, `VCID`, most significant first (R100). -/
def frameIdWord (c : Config) : Nat := c.tfvn * 2 ^ 14 + c.scid * 2 ^ 6 + c.vcid

/-- `frame_header(seq)`: the 8-byte fixed header (R170). Only `seq[23:0]` is used (R172). -/
def frameHeader (c : Config) (seq : Nat) : List Byte :=
  put16 (frameIdWord c) ++ put24 (bits seq 23 0) ++ [0x00] ++ [0x00, 0x00]

/-- `build_frame(p, seq)` (R175). The zero-filled buffer of the pseudocode is overwritten in full (R179), so the frame is
the header, the packet and the idle packet, in that order (R105). -/
def buildFrame (c : Config) (p : List Byte) (seq : Nat) : Except BuildErr (List Byte) :=
  if p.length + fhLen > c.frameLen then .error .tooLarge
  else
    match makeIdle c (c.frameLen - (fhLen + p.length)) with
    | .error .invalidLength => .error .idleShort
    | .ok q => .ok (frameHeader c seq ++ p ++ q)

end Sys2Proof.Machine
end

