-- ==== Sys2Proof/Machine/State.lean ====
section
/-! DEFINITION. The state of the machine: configuration, block, environment (`10_state.md` R20 to R41), the model's own
fields for the interleaving (`20_memory.md` R78), the reasons a step can stop, and the state after reset. -/

namespace Sys2Proof.Machine

/-- `PSTATE`, the engine's state (R27). The value 7 is never held, so it has no constructor (R121). -/
inductive PState where
  | idle
  | build
  | emit
  | wait
  | done
  | error
  | stopped
  deriving DecidableEq, Repr

/-- `EPHASE`, the sub-phase of `EMIT` (R32). -/
inductive EPhase where
  | pkt
  | frm
  deriving DecidableEq, Repr

/-- The result of a frame build, as `BRES` and `LAST_BUILD` hold it (R31, R33). -/
inductive BuildResult where
  | none
  | ok
  | tooLarge
  | idleShort
  deriving DecidableEq, Repr

/-- The block state (R20 part 2): the items of R24 to R38. -/
structure Block where
  /-- `RD_POS` (R24). -/
  rdPos : Word
  /-- `TM_PKT_CNT` (R25). -/
  tmPktCnt : Word
  /-- `TM_FRAME_CNT` (R26). -/
  tmFrameCnt : Word
  /-- `PSTATE` (R27). -/
  pstate : PState
  /-- `RUN` (R28). -/
  run : Bool
  /-- `STOP_REQ` (R29). -/
  stopReq : Bool
  /-- `ERR_CMD` (R30). -/
  errCmd : Bool
  /-- `LAST_BUILD` (R31). -/
  lastBuild : BuildResult
  /-- `EPHASE` (R32). -/
  ephase : EPhase
  /-- `BRES` (R33). -/
  bres : BuildResult
  /-- `PKT_BUF` (R34). -/
  pktBuf : List Byte
  /-- `FRM_BUF` (R35). -/
  frmBuf : List Byte
  /-- `HDR_ID` (R36). -/
  hdrId : Half
  /-- `HDR_SEQ` (R37). -/
  hdrSeq : Half
  /-- `HDR_LEN` (R38). -/
  hdrLen : Half
  deriving DecidableEq, Repr

/-- The environment (R20 part 3): the input stream and the two output logs (R22, R23). -/
structure Env where
  /-- `STREAM`; byte `i` is at stream position `i` (R62). -/
  stream : List Byte
  /-- `PKT_OUT`, the messages emitted so far, oldest first (R63). -/
  pktOut : List (List Byte)
  /-- `FRM_OUT`, the messages emitted so far, oldest first (R63). -/
  frmOut : List (List Byte)
  deriving DecidableEq, Repr

/-- One host register access: an address, a width in bytes and, for a write, the 32-bit data (R220, R221). -/
inductive Access where
  | read (addr width : Nat)
  | write (addr width : Nat) (v : Word)
  deriving DecidableEq, Repr

/-- One transition of the total order of R78. -/
inductive Event where
  /-- The engine takes its enabled step, or nothing happens when none is enabled (R190). -/
  | engine
  /-- The host issues one register access (R220). -/
  | access (a : Access)
  /-- The platform asserts the reset input (R280). -/
  | resetInput
  deriving DecidableEq, Repr

/-- What the host gets back for one access (R239). -/
inductive Reply where
  /-- A legal read's value (R230). -/
  | value (v : Word)
  /-- A legal write was taken; it carries no data (R231). -/
  | accepted
  /-- The bus error response (R222, R257). -/
  | busError
  /-- The address is outside the window and the block does not respond (R222). -/
  | noResponse
  deriving DecidableEq, Repr

/-- The MODEL's own fields on the host's side: what comes next and what the host got back (log 1, log 8). -/
structure HostSide where
  /-- The next transitions, first first. After the last one only the engine moves (log 1). -/
  pending : List Event
  /-- The replies to the host's accesses so far, oldest first. -/
  replies : List Reply
  deriving DecidableEq, Repr

/-- The machine's state: the three parts of R20, the host's side, and the index of the next free value (log 6). -/
structure State where
  cfg : Config
  blk : Block
  env : Env
  host : HostSide
  freeCtr : Nat
  deriving DecidableEq, Repr

/-- Why a step stops with a fault. -/
inductive Fault where
  /-- Raised by `E_BUILD` when `STREAM` is longer than `2^32 - 1` bytes: the spec gives such a stream no meaning (R22, D40).
  Safe: the model stops where hardware might go on (log 10). -/
  | streamTooLong
  deriving DecidableEq, Repr

/-- Why a step is refused. -/
inductive Refusal where
  /-- Raised by an arm of `exec` for an instruction without a meaning. No arm does. Safe. -/
  | notModelled (mnemonic : String)
  /-- Raised by `fetch` in a state whose configuration is outside its constraints: no such block is built (R271). Safe. -/
  | badConfig (e : ConfigError)
  deriving DecidableEq, Repr

/-- The block right after reset (R41). The buffers' contents are a DESIGN CHOICE (log 5): zero bytes, of lengths R34 and R35 allow. -/
def Block.reset (c : Config) : Block where
  rdPos := 0
  tmPktCnt := 0
  tmFrameCnt := 0
  pstate := .idle
  run := false
  stopReq := false
  errCmd := false
  lastBuild := .none
  ephase := .pkt
  bres := .none
  pktBuf := List.replicate 7 0
  frmBuf := List.replicate c.frameLen 0
  hdrId := 0
  hdrSeq := 0
  hdrLen := 0

/-- The machine of configuration `c` right after power-on reset, with the stream the host presents (R284 steps 1 to 3). -/
def State.resetWith (c : Config) (stream : List Byte) : State where
  cfg := c
  blk := Block.reset c
  env := { stream := stream, pktOut := [], frmOut := [] }
  host := { pending := [], replies := [] }
  freeCtr := 0

/-- The machine right after reset (R41, R280), of the example configuration (log 2), no stream presented (log 7). -/
def State.reset : State := State.resetWith Config.example []

end Sys2Proof.Machine
end

