-- ==== Sys2Proof/Machine/Flags.lean ====
section
/-! DEFINITION. The codes of the state items and the `STATUS` word (`10_state.md` R27, R31, R39; `30_encoding.md` R112). -/

namespace Sys2Proof.Machine

/-- `PSTATE` as `STATUS.STATE` shows it (R27, R112). -/
def pstateCode : PState → Nat
  | .idle => 0
  | .build => 1
  | .emit => 2
  | .wait => 3
  | .done => 4
  | .error => 5
  | .stopped => 6

/-- A build result's code (R31, R112). -/
def buildCode : BuildResult → Nat
  | .none => 0
  | .ok => 1
  | .tooLarge => 2
  | .idleShort => 3

/-- A one-bit flag as a number. -/
def flagBit (b : Bool) : Nat := if b then 1 else 0

/-- The `STATUS` word (R112). -/
def statusWord (b : Block) : Word :=
  BitVec.ofNat 32 (pstateCode b.pstate + flagBit b.run * 2 ^ 3 + flagBit b.stopReq * 2 ^ 4 + flagBit b.errCmd * 2 ^ 5 +
    buildCode b.lastBuild * 2 ^ 8)

/-- How the result of `build_frame` is recorded in `BRES` (R192). -/
def recordedResult : Except BuildErr (List Byte) → BuildResult
  | .ok _ => .ok
  | .error .tooLarge => .tooLarge
  | .error .idleShort => .idleShort

end Sys2Proof.Machine
end

