-- ==== Sys2Proof/Machine/Ops.lean ====
section
/-! DEFINITION. The named operations over the state that commands, engine steps and reset share. Taking an error is one
of them: the block has no traps, and an error is recorded in state by the step that meets it (`60_exceptions.md` R250,
R251, R260). -/

namespace Sys2Proof.Machine

/-- Enter a terminal state: `RUN` and `STOP_REQ` are cleared with it (R39). -/
def enterTerminal (p : PState) (s : State) : State :=
  { s with blk := { s.blk with pstate := p, run := false, stopReq := false } }

/-- `ILLEGAL_CMD` (R237, R256): the sticky `ERR_CMD` and nothing else. -/
def illegalCmd (s : State) : State := { s with blk := { s.blk with errCmd := true } }

/-- `HDR_ID`, `HDR_SEQ`, `HDR_LEN` from a header's or a packet's first 6 bytes (R36 to R38, R192). -/
def captureHeader (h : List Byte) (s : State) : State :=
  { s with blk := { s.blk with
      hdrId := BitVec.ofNat 16 (be (slice h 0 2))
      hdrSeq := BitVec.ofNat 16 (be (slice h 2 4))
      hdrLen := BitVec.ofNat 16 (be (slice h 4 6)) } }

/-- `Emit(PKT_OUT, m)` (R16). -/
def emitPkt (m : List Byte) (s : State) : State := { s with env := { s.env with pktOut := s.env.pktOut ++ [m] } }

/-- `Emit(FRM_OUT, m)` (R16). -/
def emitFrm (m : List Byte) (s : State) : State := { s with env := { s.env with frmOut := s.env.frmOut ++ [m] } }

/-- FREE VALUE (log 6): what `PKT_BUF` holds after the reset numbered `n`, within R34's bounds. -/
def freePktBuf (n : Nat) : List Byte := (List.range (7 + (Config.freePktLen n).val)).map (Config.freeByte n)

/-- FREE VALUE (log 6): what `FRM_BUF` holds after the reset numbered `n`, of R35's length. -/
def freeFrmBuf (c : Config) (n : Nat) : List Byte :=
  (List.range c.frameLen).map (fun i => Config.freeByte n (maxPkt + i))

/-- `do_reset` (R281): every item to the value of R41, the buffers to free values, the configuration and the environment
left as they are. -/
def doReset (s : State) : State :=
  { s with
    blk :=
      { rdPos := 0, tmPktCnt := 0, tmFrameCnt := 0, pstate := .idle, run := false, stopReq := false, errCmd := false
        lastBuild := .none, ephase := .pkt, bres := .none
        pktBuf := freePktBuf s.freeCtr, frmBuf := freeFrmBuf s.cfg s.freeCtr
        hdrId := 0, hdrSeq := 0, hdrLen := 0 }
    freeCtr := s.freeCtr + 1 }

/-- The host gets `r` back for its access (R239). -/
def giveReply (r : Reply) (s : State) : State := { s with host := { s.host with replies := s.host.replies ++ [r] } }

/-- What is still to come after the next event is taken. -/
def setPending (es : List Event) (s : State) : State := { s with host := { s.host with pending := es } }

end Sys2Proof.Machine
end

