-- ==== Sys2Proof/Machine/Parser.lean ====
section
/-! DEFINITION. The space-packet header parser `pkt_read` (`40_packet_parser.md` R131 to R138). -/

namespace Sys2Proof.Machine

/-- What a packet read can report besides a packet (R131). -/
inductive PktErr where
  /-- No more packets: fewer than 6 bytes remain (R133). -/
  | eos
  /-- The header `h` implies a body longer than the stream (R134). -/
  | corrupt (h : List Byte)
  deriving DecidableEq, Repr

/-- `StreamRead(pos, n)`: the bytes, or `none` for `SHORT` (R16). Lengths are compared without wrap-around (R138). -/
def streamRead (S : List Byte) (pos n : Nat) : Option (List Byte) :=
  if pos + n ≤ S.length then some (slice S pos (pos + n)) else none

/-- The total length of the packet with header `h`: `7 + d` (R97). -/
def pktLength (h : List Byte) : Nat := 7 + be (slice h 4 6)

/-- `pkt_read(S, pos)` (R132). No field but the data length is looked at (R135). -/
def pktRead (S : List Byte) (pos : Nat) : Except PktErr (List Byte × Nat) :=
  match streamRead S pos phLen with
  | none => .error .eos
  | some h =>
    let d := be (slice h 4 6)
    match streamRead S (pos + phLen) (d + 1) with
    | none => .error (.corrupt h)
    | some body => .ok (h ++ body, pos + 7 + d)

end Sys2Proof.Machine
end

