-- ==== Sys2Proof/Machine/Engine.lean ====
section
/-! DEFINITION. The engine: its four steps and when each is enabled (`43_producer.md` R190 to R199). -/

namespace Sys2Proof.Machine

/-- The engine's steps (R190). -/
inductive EngineStep where
  | eBuild
  | eEmitPkt
  | eEmitFrm
  | eWake
  deriving DecidableEq, Repr

/-- The step enabled in a state of the block, if any (R190). -/
def enabledStep (b : Block) : Option EngineStep :=
  match b.pstate, b.ephase with
  | .idle, _ => none
  | .build, _ => some .eBuild
  | .emit, .pkt => some .eEmitPkt
  | .emit, .frm => some .eEmitFrm
  | .wait, _ => some .eWake
  | .done, _ => none
  | .error, _ => none
  | .stopped, _ => none

/-- The `Ok(p, pos')` branch of `E_BUILD`: take the packet and build its frame (R192). -/
def loadPacket (p : List Byte) (pos' : Nat) (s : State) : State :=
  let s1 := captureHeader p s
  let b := buildFrame s.cfg p (s.blk.tmFrameCnt.toNat % 2 ^ 24)
  { s1 with blk := { s1.blk with
      pktBuf := p
      rdPos := BitVec.ofNat 32 pos'
      bres := recordedResult b
      frmBuf := match b with
        | .ok f => f
        | .error _ => s.blk.frmBuf
      ephase := .pkt
      pstate := .emit } }

/-- `E_BUILD` (R192 to R194). It stops on a stream that R22 excludes (log 10). -/
def eBuild (s : State) : Host.Outcome State Fault Refusal :=
  if s.env.stream.length ≤ 2 ^ 32 - 1 then
    match pktRead s.env.stream s.blk.rdPos.toNat with
    | .error .eos => .next (enterTerminal .done s)
    | .error (.corrupt h) => .next (enterTerminal .error (captureHeader h s))
    | .ok (p, pos') => .next (loadPacket p pos' s)
  else .fault .streamTooLong

/-- `E_EMIT_PKT` (R195). -/
def eEmitPkt (s : State) : State :=
  let s1 := emitPkt s.blk.pktBuf s
  { s1 with blk := { s1.blk with tmPktCnt := s1.blk.tmPktCnt + 1, ephase := .frm } }

/-- `end_of_iteration` (R197). -/
def endOfIteration (s : State) : State :=
  let s1 : State := { s with blk := { s.blk with ephase := .pkt } }
  if s.blk.stopReq then enterTerminal .stopped s1
  else if s.blk.run then { s1 with blk := { s1.blk with pstate := .wait } }
  else { s1 with blk := { s1.blk with pstate := .idle } }

/-- The frame's emission in `E_EMIT_FRM`: only a built frame is emitted and counted (R196). -/
def emitBuiltFrame (s : State) : State :=
  if s.blk.bres = .ok then
    let s1 := emitFrm s.blk.frmBuf s
    { s1 with blk := { s1.blk with tmFrameCnt := s1.blk.tmFrameCnt + 1 } }
  else s

/-- `E_EMIT_FRM` (R196). -/
def eEmitFrm (s : State) : State :=
  let s1 := emitBuiltFrame s
  endOfIteration { s1 with blk := { s1.blk with lastBuild := s1.blk.bres } }

/-- `E_WAKE` (R198). -/
def eWake (s : State) : State := { s with blk := { s.blk with pstate := .build } }

/-- The effect of one engine step. -/
def runEngineStep : EngineStep → State → Host.Outcome State Fault Refusal
  | .eBuild, s => eBuild s
  | .eEmitPkt, s => .next (eEmitPkt s)
  | .eEmitFrm, s => .next (eEmitFrm s)
  | .eWake, s => .next (eWake s)

/-- The engine's turn: its enabled step, or nothing when none is enabled (R190). -/
def engineTurn (s : State) : Host.Outcome State Fault Refusal :=
  match enabledStep s.blk with
  | some e => runEngineStep e s
  | none => .next s

end Sys2Proof.Machine
end

