-- ==== Sys2Proof/Machine/Operands.lean ====
section
/-! DEFINITION. The operands of a host access: which register slot an address and a width select (`44_host_commands.md`
R221, R222; `20_memory.md` R61, R66, R72). A command itself has no operand (`30_encoding.md` R92). -/

namespace Sys2Proof.Machine

/-- What an access of some address and width reaches. -/
inductive Target where
  /-- Not the block's: it does not respond (R222). -/
  | outside
  /-- In the window, but not 4 bytes wide or not 4-byte aligned (R222). -/
  | illegal
  /-- A legal access to the slot at this offset (R221). -/
  | slot (off : Nat)
  deriving DecidableEq, Repr

/-- The size of the register window in bytes (R61). -/
abbrev windowSize : Nat := 64

/-- Address decode (R221, R222). -/
def accessTarget (c : Config) (addr width : Nat) : Target :=
  if c.base ≤ addr ∧ addr < c.base + windowSize then
    if width = 4 ∧ (addr - c.base) % 4 = 0 then .slot (addr - c.base) else .illegal
  else .outside

end Sys2Proof.Machine
end

