-- ==== Sys2Proof/Machine/Bus.lean ====
section
/-! DEFINITION. Host register accesses and the choice of the next transition (`44_host_commands.md` R220 to R231;
`20_memory.md` R66, R75 to R78). Step.lean only calls what stands here. -/

namespace Sys2Proof.Machine

/-- `CFG_FRAME` (R113). -/
def cfgFrameWord (c : Config) : Word :=
  BitVec.ofNat 32 (c.frameLen + c.scid * 2 ^ 16 + c.vcid * 2 ^ 24 + c.tfvn * 2 ^ 30)

/-- `CFG_IDLE` (R114). -/
def cfgIdleWord (c : Config) : Word := BitVec.ofNat 32 c.idleApid

/-- The value of the register slot at an offset (R230): 0 for `CMD` (R225) and for the reserved slots (R223). -/
def readSlot (s : State) (off : Nat) : Word :=
  match off with
  | 0x00 => 0
  | 0x04 => statusWord s.blk
  | 0x08 => s.blk.tmPktCnt
  | 0x0C => s.blk.tmFrameCnt
  | 0x10 => s.blk.rdPos
  | 0x14 => cfgFrameWord s.cfg
  | 0x18 => cfgIdleWord s.cfg
  | 0x1C => BitVec.ofNat 32 s.blk.hdrId.toNat
  | 0x20 => BitVec.ofNat 32 (s.blk.hdrSeq.toNat + s.blk.hdrLen.toNat * 2 ^ 16)
  | _ => 0

/-- `MemRead(a, n)`: what the host gets back (R222, R230). -/
def memRead (s : State) (addr width : Nat) : Reply :=
  match accessTarget s.cfg addr width with
  | .outside => .noResponse
  | .illegal => .busError
  | .slot off => .value (readSlot s off)

/-- What the next transition is: a command to execute, or a transition whose outcome is known. -/
inductive Transition where
  /-- A legal write of a command's word to `CMD`; `s` is the state without the event. -/
  | command (i : Instr) (s : State)
  /-- Any other transition. -/
  | other (o : Host.Outcome State Fault Refusal)

/-- The effect of `MemWrite(a, n, v)` up to the command it executes (R231, R237). -/
def hostWrite (addr width : Nat) (v : Word) (s : State) : Transition :=
  match accessTarget s.cfg addr width with
  | .outside => .other (.next (giveReply .noResponse s))
  | .illegal => .other (.next (giveReply .busError s))
  | .slot off =>
    if off = 0x00 then
      match decode v with
      | .ok i => .command i s
      | .error _ => .other (.next (giveReply .accepted (illegalCmd s)))
    else .other (.next (giveReply .accepted s))

/-- One host register access (R220). A read changes nothing but what the host got back (R76). -/
def hostAccess : Access → State → Transition
  | .read addr width, s => .other (.next (giveReply (memRead s addr width) s))
  | .write addr width v, s => hostWrite addr width v s

/-- One event of the total order (R78). -/
def takeEvent : Event → State → Transition
  | .engine, s => .other (engineTurn s)
  | .access a, s => hostAccess a s
  | .resetInput, s => .other (.next (doReset s))

/-- The next transition: a block with an illegal configuration does not exist (R271); else the first pending event, and
the engine's turn when none is pending (log 1). -/
def fetch (s : State) : Transition :=
  match configProblem s.cfg with
  | some e => .other (.refused (.badConfig e))
  | none =>
    match s.host.pending with
    | [] => .other (engineTurn s)
    | e :: rest => takeEvent e (setPending rest s)

/-- The command's write completes with its execution: decode and execution are one transition (R229). -/
def finishCommand : Host.Outcome State Fault Refusal → Host.Outcome State Fault Refusal
  | .next s => .next (giveReply .accepted s)
  | .fault f => .fault f
  | .refused r => .refused r

/-- Place a host write of `v` to `CMD` before everything still pending. -/
def queueCommand (v : Word) (s : State) : State :=
  setPending (.access (.write s.cfg.base 4 v) :: s.host.pending) s

end Sys2Proof.Machine
end

