-- ==== Sys2Proof/Machine/Commands.lean ====
section
/-! DEFINITION. The meanings of the five commands (`44_host_commands.md` R232 to R238). -/

namespace Sys2Proof.Machine

/-- `NOP` (R232): no effect. -/
def execNop (s : State) : Host.Outcome State Fault Refusal := .next s

/-- The common form of START and STEP (R233, R234): from `IDLE` to `BUILD` with `RUN` as given, else `ILLEGAL_CMD`. -/
def beginRun (r : Bool) (s : State) : State :=
  if s.blk.pstate = .idle then { s with blk := { s.blk with run := r, pstate := .build } } else illegalCmd s

/-- `START` (R233). -/
def execStart (s : State) : Host.Outcome State Fault Refusal := .next (beginRun true s)

/-- `STEP` (R234). -/
def execStep (s : State) : Host.Outcome State Fault Refusal := .next (beginRun false s)

/-- `STOP` (R235). -/
def execStop (s : State) : Host.Outcome State Fault Refusal :=
  match s.blk.pstate with
  | .idle => .next (enterTerminal .stopped s)
  | .wait => .next (enterTerminal .stopped s)
  | .build => .next { s with blk := { s.blk with stopReq := true } }
  | .emit => .next { s with blk := { s.blk with stopReq := true } }
  | .done => .next s
  | .error => .next s
  | .stopped => .next s

/-- `SRESET` (R236). -/
def execSreset (s : State) : Host.Outcome State Fault Refusal := .next (doReset s)

end Sys2Proof.Machine
end

