-- ==== Sys2Proof/Machine/Dispatch.lean ====
section
/-! DEFINITION. One arm per command: the dispatch of a decoded command to its meaning (`44_host_commands.md` R229). -/
namespace Sys2Proof.Machine
def exec (i : Instr) (s : State) : Host.Outcome State Fault Refusal :=
  match i with
  | .nop => Sys2Proof.Machine.execNop s
  | .start => Sys2Proof.Machine.execStart s
  | .step => Sys2Proof.Machine.execStep s
  | .stop => Sys2Proof.Machine.execStop s
  | .sreset => Sys2Proof.Machine.execSreset s
end Sys2Proof.Machine
end

