-- ==== Sys2Proof/Machine/Step.lean ====
section
/-! DEFINITION. One transition of the machine (`00_scope.md` R17; `20_memory.md` R78). -/

namespace Sys2Proof.Machine

/-- One atomic transition: the next one in the total order (R78). -/
def step (s : State) : Host.Outcome State Fault Refusal :=
  match fetch s with
  | .command i t => finishCommand (exec i t)
  | .other o => o

/-- `s` with a host write of the command word `w` to `CMD` as the next transition (log 13). -/
def State.withFetchWord (s : State) (nbits w : Nat) : State := queueCommand (BitVec.ofNat 32 (w % 2 ^ nbits)) s

end Sys2Proof.Machine
end

