-- ==== Sys2Proof/Safety.lean ====
section
/-! DEFINITION. The terms in which claims are stated: a run's end, the invariants of `10_state.md` R40, the history since
a reset (`43_producer.md` R201, R202), and the kinds of the next transition. -/

namespace Sys2Proof.Machine

/-- The terminal states (R27, R199). -/
abbrev PState.Terminal (p : PState) : Prop := p = .done ∨ p = .error ∨ p = .stopped

/-- No engine step is enabled: the engine's part of a run is over (R204). -/
abbrev Block.Quiescent (b : Block) : Prop := b.pstate = .idle ∨ b.pstate.Terminal

/-- Whether the next transition is a reset: the reset input, or a legal write of SRESET to `CMD` (R280). -/
def nextIsReset (s : State) : Bool :=
  match s.host.pending with
  | .resetInput :: _ => true
  | .access (.write addr width v) :: _ => accessTarget s.cfg addr width == .slot 0x00 && v == encode .sreset
  | _ => false

/-- Whether the next transition is a host access. -/
def nextIsAccess (s : State) : Bool :=
  match s.host.pending with
  | .access _ :: _ => true
  | _ => false

/-- The stream is one the spec gives a meaning (R22, D40). -/
abbrev Env.StreamFits (e : Env) : Prop := e.stream.length ≤ 2 ^ 32 - 1

/-- What the environment keeps: R22's bound and the message lengths of R23 and R63. -/
structure Env.Wf (c : Config) (e : Env) : Prop where
  stream : e.StreamFits
  packets : ∀ m ∈ e.pktOut, 7 ≤ m.length ∧ m.length ≤ maxPkt
  frames : ∀ m ∈ e.frmOut, m.length = c.frameLen

/-- The build of the current packet with the current frame count (R192). -/
def currentBuild (s : State) : Except BuildErr (List Byte) :=
  buildFrame s.cfg s.blk.pktBuf (s.blk.tmFrameCnt.toNat % 2 ^ 24)

/-- What holds of the block in every state a run reaches (R40 items 3 to 5, with R24, R32 and R290). -/
structure BlockInv (s : State) : Prop where
  /-- R40.4, first half. -/
  stopReq : s.blk.stopReq = true → s.blk.pstate = .build ∨ s.blk.pstate = .emit
  /-- R40.4, second half. -/
  run : s.blk.run = true → s.blk.pstate = .build ∨ s.blk.pstate = .emit ∨ s.blk.pstate = .wait
  /-- R40.5. -/
  wait : s.blk.pstate = .wait → s.blk.run = true
  /-- R40.3: `BRES` is the result of the current packet's build. -/
  bres : s.blk.pstate = .emit → s.blk.bres = recordedResult (currentBuild s)
  /-- R40.3: a built frame is in `FRM_BUF`. -/
  frmBuf : s.blk.pstate = .emit → ∀ f, currentBuild s = .ok f → s.blk.frmBuf = f
  /-- R40.3: `PKT_BUF` is the packet that ends at `RD_POS`. -/
  pktBuf : s.blk.pstate = .emit → ∃ pos, pktRead s.env.stream pos = .ok (s.blk.pktBuf, s.blk.rdPos.toNat)
  /-- R290: in `EMIT` the captures describe the packet in `PKT_BUF`. -/
  captures : s.blk.pstate = .emit →
    s.blk.hdrId.toNat = be (slice s.blk.pktBuf 0 2) ∧ s.blk.hdrSeq.toNat = be (slice s.blk.pktBuf 2 4) ∧
      s.blk.hdrLen.toNat = be (slice s.blk.pktBuf 4 6)
  /-- R32: outside `EMIT` the sub-phase is `PKT`. -/
  ephase : s.blk.pstate ≠ .emit → s.blk.ephase = .pkt
  /-- R24: `RD_POS` counts bytes of the stream. -/
  rdPos : s.blk.rdPos.toNat ≤ s.env.stream.length

/-- The invariant of the machine. -/
structure MachineInv (s : State) : Prop where
  cfg : s.cfg.Legal
  env : s.env.Wf s.cfg
  blk : BlockInv s

/-- The frames of a list of packets, numbered from `k`: a packet that cannot be framed is skipped and takes no number
(R196, R201). -/
def framesFrom (c : Config) (k : Nat) : List (List Byte) → List (List Byte)
  | [] => []
  | p :: ps =>
    match buildFrame c p (k % 2 ^ 24) with
    | .ok f => f :: framesFrom c (k + 1) ps
    | .error _ => framesFrom c k ps

/-- The current packet has been emitted and its frame phase remains (R32). -/
abbrev Block.FramePending (b : Block) : Prop := b.pstate = .emit ∧ b.ephase = .frm

/-- The current packet has been read and not yet emitted (R32). -/
abbrev Block.PacketPending (b : Block) : Prop := b.pstate = .emit ∧ b.ephase = .pkt

/-- The packets emitted since `PKT_OUT` held `m` messages. -/
def packetsSince (m : Nat) (s : State) : List (List Byte) := s.env.pktOut.drop m

/-- The frames emitted since `FRM_OUT` held `n` messages. -/
def framesSince (n : Nat) (s : State) : List (List Byte) := s.env.frmOut.drop n

/-- The packets since `m` whose frame phase is over. -/
def framedPackets (m : Nat) (s : State) : List (List Byte) :=
  if s.blk.FramePending then (packetsSince m s).dropLast else packetsSince m s

/-- The packet read and not yet emitted, if any. -/
def unsentPacket (s : State) : List Byte := if s.blk.PacketPending then s.blk.pktBuf else []

/-- The history since a reset that found `m` messages on `PKT_OUT` and `n` on `FRM_OUT`: the counters count the messages
(R40, mod 2^32), the frames are those of the packets in order (R201, R202), the packets are the stream's bytes in order (R24, R135). -/
structure History (m n : Nat) (s : State) : Prop where
  pktMark : m ≤ s.env.pktOut.length
  frmMark : n ≤ s.env.frmOut.length
  pktCount : s.blk.tmPktCnt = BitVec.ofNat 32 (packetsSince m s).length
  frmCount : s.blk.tmFrameCnt = BitVec.ofNat 32 (framesSince n s).length
  lastPacket : s.blk.FramePending → (packetsSince m s).getLast? = some s.blk.pktBuf
  frames : framesSince n s = framesFrom s.cfg 0 (framedPackets m s)
  bytes : (packetsSince m s).flatten ++ unsentPacket s = s.env.stream.take s.blk.rdPos.toNat

/-- What a run shows at its end (R204): the two logs and the sixteen register slots. -/
structure Observation where
  pktOut : List (List Byte)
  frmOut : List (List Byte)
  registers : List Word
  deriving DecidableEq, Repr

/-- The observation of a state (R204). -/
def observe (s : State) : Observation where
  pktOut := s.env.pktOut
  frmOut := s.env.frmOut
  registers := (List.range 16).map (fun k => readSlot s (4 * k))

end Sys2Proof.Machine
end

