-- ==== Sys2Proof/Certificates/Slice0/Obligations.lean ====
section
/-! DEFINITION. The statements for the provers, from the numbered rules of spec/: encodings, the three pure functions, the
commands, the engine steps, host accesses, reset, and the invariants of the whole machine. -/

open Sys2Proof Sys2Proof.Machine

/-! ## Encodings -/

/-- R118, R119: the five command words, and words next to them that are illegal. -/
def Obligations.OpcodeWordsDecode : Prop :=
  decode 0x00000000 = .ok .nop ∧ decode 0x00000001 = .ok .start ∧ decode 0x00000002 = .ok .step ∧
    decode 0x00000003 = .ok .stop ∧ decode 0x00000004 = .ok .sreset ∧
    decode 0x00000005 = .error .reservedOpcode ∧ decode 0x000000FF = .error .reservedOpcode ∧
    decode 0x00000105 = .error .reservedBits ∧ decode 0x80000001 = .error .reservedBits

/-- R118, R229: decoding an encoded command gives it back, and no other word decodes to it. -/
def Obligations.DecodeEncodeAgree : Prop :=
  (∀ i : Instr, i.WellFormed = true → decode (encode i) = .ok i) ∧
    ∀ (v : Word) (i : Instr), decode v = .ok i → encode i = v

/-- R92, R119: which words are illegal, by the fields of R91. -/
def Obligations.ReservedWordsRejected : Prop :=
  ∀ v : Word,
    (decode v = .error .reservedBits ↔ cmdRsv v ≠ 0) ∧
      (decode v = .error .reservedOpcode ↔ cmdRsv v = 0 ∧ 5 ≤ (cmdOp v).toNat)

/-- R94 to R96, R98, R122: every 6 header bytes decode, and no bit is dropped either way. -/
def Obligations.HeaderFieldsRoundTrip : Prop :=
  (∀ f : PktHeader, f.bytes.length = 6 ∧ hdrFields f.bytes = f) ∧
    ∀ h : List Byte, h.length = 6 → (hdrFields h).bytes = h

/-- The example and the corner cases of R130. -/
def Obligations.HeaderFieldsExamples : Prop :=
  hdrFields [0x08, 0x64, 0xC0, 0x01, 0x00, 0x03] = ⟨0, 0, 1, 0x064, 3, 1, 3⟩ ∧
    hdrFields [0x00, 0x00, 0x00, 0x00, 0x00, 0x00] = ⟨0, 0, 0, 0, 0, 0, 0⟩ ∧
    hdrFields [0xFF, 0xFF, 0xFF, 0xFF, 0xFF, 0xFF] = ⟨7, 1, 1, 0x7FF, 3, 0x3FFF, 65535⟩

/-! ## The packet parser -/

/-- R132 to R134, R258: the three outcomes of a packet read, by what is left of the stream. -/
def Obligations.PacketReadOutcomes : Prop :=
  ∀ (S : List Byte) (pos : Nat),
    (pktRead S pos = .error .eos ↔ S.length < pos + 6) ∧
      (∀ h, pktRead S pos = .error (.corrupt h) ↔
        pos + 6 ≤ S.length ∧ h = slice S pos (pos + 6) ∧ S.length < pos + 7 + be (slice h 4 6)) ∧
      ((∃ p pos', pktRead S pos = .ok (p, pos')) ↔ pos + 7 + be (slice S (pos + 4) (pos + 6)) ≤ S.length)

/-- R136: what a successful read gives, byte for byte. -/
def Obligations.PacketReadGivesWholePacket : Prop :=
  ∀ (S : List Byte) (pos : Nat) (p : List Byte) (pos' : Nat), pktRead S pos = .ok (p, pos') →
    p.length = 7 + (hdrFields (slice p 0 6)).dataLen.toNat ∧ 7 ≤ p.length ∧ p.length ≤ maxPkt ∧
      slice p 0 6 = slice S pos (pos + 6) ∧ p = slice S pos pos' ∧ pos' = pos + p.length ∧ pos' ≤ S.length

/-- R97, R122, R135: any byte sequence whose data length field fits it is read whole from any place in a stream, whatever
its other fields hold. -/
def Obligations.AnyPacketIsReadBack : Prop :=
  ∀ a p b : List Byte, 6 ≤ p.length → p.length = 7 + (hdrFields (slice p 0 6)).dataLen.toNat →
    pktRead (a ++ p ++ b) a.length = .ok (p, a.length + p.length)

/-! ## The idle generator -/

/-- R152, R153: the lengths `make_idle` refuses, and that it accepts the others. -/
def Obligations.IdleLengthBounds : Prop :=
  ∀ (c : Config) (L : Nat),
    (makeIdle c L = .error .invalidLength ↔ L < 7 ∨ 65542 < L) ∧
      ((∃ q, makeIdle c L = .ok q) ↔ 7 ≤ L ∧ L ≤ 65542)

/-- R154: an idle packet's header decodes to the idle fields, its data is zero, and the parser reads it back whole. -/
def Obligations.IdlePacketDecodesBack : Prop :=
  ∀ (c : Config) (L : Nat), c.Legal → 7 ≤ L → L ≤ maxPkt →
    ∃ q, makeIdle c L = .ok q ∧ q.length = L ∧
      hdrFields (slice q 0 6) = ⟨0, 0, 0, BitVec.ofNat 11 c.idleApid, BitVec.ofNat 2 seqStandalone, 0, BitVec.ofNat 16 (L - 7)⟩ ∧
      (hdrFields (slice q 0 6)).apid.toNat = c.idleApid ∧ (hdrFields (slice q 0 6)).dataLen.toNat = L - 7 ∧
      (∀ x ∈ slice q 6 L, x = 0) ∧ pktRead q 0 = .ok (q, L)

/-! ## The frame builder -/

/-- R178: which packets fit. -/
def Obligations.FrameFitCondition : Prop :=
  ∀ (c : Config) (p : List Byte) (seq : Nat), c.Legal →
    (p.length ≤ c.frameLen - 15 → ∃ f q, buildFrame c p seq = .ok f ∧ makeIdle c (c.frameLen - 8 - p.length) = .ok q ∧
      f = frameHeader c seq ++ p ++ q ∧ q.length = c.frameLen - 8 - p.length ∧ 7 ≤ q.length) ∧
    (c.frameLen - 14 ≤ p.length ∧ p.length ≤ c.frameLen - 8 → buildFrame c p seq = .error .idleShort) ∧
    (c.frameLen - 7 ≤ p.length → buildFrame c p seq = .error .tooLarge)

/-- R180: a frame has exactly `FRAME_LEN` bytes. -/
def Obligations.FrameLengthExact : Prop :=
  ∀ (c : Config) (p : List Byte) (seq : Nat) (f : List Byte), c.Legal → buildFrame c p seq = .ok f → f.length = c.frameLen

/-- R181: the fields of a frame decode back, the packet and the idle packet stand behind its header. -/
def Obligations.FrameDecodesBack : Prop :=
  ∀ (c : Config) (p : List Byte) (seq : Nat), c.Legal → p.length ≤ c.frameLen - 15 →
    ∃ f q, buildFrame c p seq = .ok f ∧
      bits (be (slice f 0 2)) 13 6 = c.scid ∧ bits (be (slice f 0 2)) 5 0 = c.vcid ∧ bits (be (slice f 0 2)) 15 14 = c.tfvn ∧
      be (slice f 2 5) = seq % 2 ^ 24 ∧ slice f 5 8 = [0x00, 0x00, 0x00] ∧
      slice f 8 (8 + p.length) = p ∧
      makeIdle c (c.frameLen - 8 - p.length) = .ok q ∧ slice f (8 + p.length) c.frameLen = q ∧
      hdrFields (slice q 0 6) = ⟨0, 0, 0, BitVec.ofNat 11 c.idleApid, BitVec.ofNat 2 seqStandalone, 0,
        BitVec.ofNat 16 (c.frameLen - 8 - p.length - 7)⟩

/-- R171, R173: the frames of one configuration differ, in their headers, in bytes 2 to 4 only. -/
def Obligations.FrameHeaderConstantPart : Prop :=
  ∀ (c : Config) (p p' : List Byte) (seq seq' : Nat) (f f' : List Byte), c.Legal →
    buildFrame c p seq = .ok f → buildFrame c p' seq' = .ok f' →
      slice f 0 2 = slice f' 0 2 ∧ slice f 5 8 = [0x00, 0x00, 0x00] ∧ slice f' 5 8 = [0x00, 0x00, 0x00]

/-! ## The commands -/

/-- R232. -/
def Obligations.NopHasNoEffect : Prop := ∀ s : State, exec .nop s = .next s

/-- R233: both cases, and everything else unchanged. -/
def Obligations.StartBeginsFreeRun : Prop :=
  ∀ s : State,
    (s.blk.pstate = .idle → exec .start s = .next { s with blk := { s.blk with run := true, pstate := .build } }) ∧
      (s.blk.pstate ≠ .idle → exec .start s = .next { s with blk := { s.blk with errCmd := true } })

/-- R234: both cases of the command itself, and everything else unchanged. -/
def Obligations.StepBeginsOneIteration : Prop :=
  ∀ s : State,
    (s.blk.pstate = .idle → exec .step s = .next { s with blk := { s.blk with run := false, pstate := .build } }) ∧
      (s.blk.pstate ≠ .idle → exec .step s = .next { s with blk := { s.blk with errCmd := true } })

/-- R235: the three cases, and everything else unchanged. -/
def Obligations.StopInEachState : Prop :=
  ∀ s : State,
    (s.blk.pstate = .idle ∨ s.blk.pstate = .wait →
      exec .stop s = .next { s with blk := { s.blk with pstate := .stopped, run := false, stopReq := false } }) ∧
    (s.blk.pstate = .build ∨ s.blk.pstate = .emit →
      exec .stop s = .next { s with blk := { s.blk with stopReq := true } }) ∧
    (s.blk.pstate = .done ∨ s.blk.pstate = .error ∨ s.blk.pstate = .stopped → exec .stop s = .next s)

/-- R281: every item but the two buffers takes its reset value; the configuration, the stream and both logs stay. -/
def Obligations.SresetRestoresResetValues : Prop :=
  ∀ s : State, ∃ t, exec .sreset s = .next t ∧ t.cfg = s.cfg ∧ t.env = s.env ∧ t.host = s.host ∧
    t.blk.pstate = .idle ∧ t.blk.run = false ∧ t.blk.stopReq = false ∧ t.blk.errCmd = false ∧
    t.blk.lastBuild = .none ∧ t.blk.ephase = .pkt ∧ t.blk.bres = .none ∧
    t.blk.tmPktCnt = 0 ∧ t.blk.tmFrameCnt = 0 ∧ t.blk.rdPos = 0 ∧
    t.blk.hdrId = 0 ∧ t.blk.hdrSeq = 0 ∧ t.blk.hdrLen = 0

/-- R34, R35 bound the buffers that a reset leaves open (log 6: their bytes are free values). -/
def Obligations.SresetBufferLengths : Prop :=
  ∀ s t : State, exec .sreset s = .next t →
    7 ≤ t.blk.pktBuf.length ∧ t.blk.pktBuf.length ≤ maxPkt ∧ t.blk.frmBuf.length = s.cfg.frameLen

/-- The frame of NOP, START, STEP and STOP: they write no register but `PSTATE`, `RUN`, `STOP_REQ` and `ERR_CMD`, no
buffer, no message, no byte of the stream (R232 to R235, R39); SRESET, like them, writes no message and no configuration. -/
def Obligations.CommandsLeaveDataUnchanged : Prop :=
  ∀ (i : Instr) (s t : State), exec i s = .next t →
    t.cfg = s.cfg ∧ t.env = s.env ∧ t.host = s.host ∧
      (i = .nop ∨ i = .start ∨ i = .step ∨ i = .stop →
        t.freeCtr = s.freeCtr ∧
        t.blk = { s.blk with pstate := t.blk.pstate, run := t.blk.run, stopReq := t.blk.stopReq, errCmd := t.blk.errCmd })

/-- R234, R197: a STEP from `IDLE` whose packet can be read returns to `IDLE` after three engine steps, with the packet
emitted and counted, and its frame emitted and counted exactly when it can be built. -/
def Obligations.StepRunsExactlyOneIteration : Prop :=
  ∀ (s : State) (p : List Byte) (pos' : Nat), s.blk.pstate = .idle → s.blk.stopReq = false → s.env.StreamFits →
    pktRead s.env.stream s.blk.rdPos.toNat = .ok (p, pos') →
    ∃ t1 t2 t3 t4, exec .step s = .next t1 ∧ engineTurn t1 = .next t2 ∧ engineTurn t2 = .next t3 ∧
      engineTurn t3 = .next t4 ∧ t4.blk.pstate = .idle ∧ t4.blk.run = false ∧ t4.blk.rdPos.toNat = pos' ∧
      t4.env.stream = s.env.stream ∧ t4.env.pktOut = s.env.pktOut ++ [p] ∧ t4.blk.tmPktCnt = s.blk.tmPktCnt + 1 ∧
      (∀ f, buildFrame s.cfg p (s.blk.tmFrameCnt.toNat % 2 ^ 24) = .ok f →
        t4.env.frmOut = s.env.frmOut ++ [f] ∧ t4.blk.tmFrameCnt = s.blk.tmFrameCnt + 1 ∧ t4.blk.lastBuild = .ok) ∧
      (∀ e, buildFrame s.cfg p (s.blk.tmFrameCnt.toNat % 2 ^ 24) = .error e →
        t4.env.frmOut = s.env.frmOut ∧ t4.blk.tmFrameCnt = s.blk.tmFrameCnt ∧ t4.blk.lastBuild = recordedResult (.error e))

/-! ## The engine -/

/-- R190: the step enabled in each state. R190 says of the other states only that no step is enabled; that the engine's
turn then leaves the state as it is, is the model's choice (log 1). -/
def Obligations.EnabledStepPerState : Prop :=
  ∀ s : State,
    (s.blk.pstate = .build → engineTurn s = eBuild s) ∧
    (s.blk.pstate = .emit ∧ s.blk.ephase = .pkt → engineTurn s = .next (eEmitPkt s)) ∧
    (s.blk.pstate = .emit ∧ s.blk.ephase = .frm → engineTurn s = .next (eEmitFrm s)) ∧
    (s.blk.pstate = .wait → engineTurn s = .next (eWake s)) ∧
    (s.blk.pstate = .idle ∨ s.blk.pstate = .done ∨ s.blk.pstate = .error ∨ s.blk.pstate = .stopped → engineTurn s = .next s)

/-- R193: `E_BUILD` with fewer than 6 bytes left. -/
def Obligations.BuildAtEndOfStream : Prop :=
  ∀ s : State, s.blk.pstate = .build → s.env.StreamFits → s.env.stream.length < s.blk.rdPos.toNat + 6 →
    engineTurn s = .next { s with blk := { s.blk with pstate := .done, run := false, stopReq := false } }

/-- R194: `E_BUILD` on a header whose body is cut short captures the header and changes nothing else but the state. -/
def Obligations.BuildOnTruncatedPacket : Prop :=
  ∀ (s : State) (h : List Byte), s.blk.pstate = .build → s.env.StreamFits →
    h = slice s.env.stream s.blk.rdPos.toNat (s.blk.rdPos.toNat + 6) →
    s.blk.rdPos.toNat + 6 ≤ s.env.stream.length → s.env.stream.length < s.blk.rdPos.toNat + 7 + be (slice h 4 6) →
    engineTurn s = .next { s with blk := { s.blk with
      pstate := .error, run := false, stopReq := false
      hdrId := BitVec.ofNat 16 (be (slice h 0 2)), hdrSeq := BitVec.ofNat 16 (be (slice h 2 4))
      hdrLen := BitVec.ofNat 16 (be (slice h 4 6)) } }

/-- R192, the `Ok` branch: the packet, the captures, the read position and the build's result, for each result. -/
def Obligations.BuildReadsPacket : Prop :=
  ∀ (s : State) (p : List Byte) (pos' : Nat), s.blk.pstate = .build → s.env.StreamFits →
    pktRead s.env.stream s.blk.rdPos.toNat = .ok (p, pos') →
    ∃ t, engineTurn s = .next t ∧ t.cfg = s.cfg ∧ t.env = s.env ∧ t.host = s.host ∧
      t.blk.hdrId.toNat = be (slice p 0 2) ∧ t.blk.hdrSeq.toNat = be (slice p 2 4) ∧ t.blk.hdrLen.toNat = be (slice p 4 6) ∧
      t.blk.pktBuf = p ∧ t.blk.rdPos.toNat = pos' ∧ t.blk.ephase = .pkt ∧ t.blk.pstate = .emit ∧
      t.blk.run = s.blk.run ∧ t.blk.stopReq = s.blk.stopReq ∧ t.blk.errCmd = s.blk.errCmd ∧
      t.blk.lastBuild = s.blk.lastBuild ∧ t.blk.tmPktCnt = s.blk.tmPktCnt ∧ t.blk.tmFrameCnt = s.blk.tmFrameCnt ∧
      (∀ f, buildFrame s.cfg p (s.blk.tmFrameCnt.toNat % 2 ^ 24) = .ok f → t.blk.bres = .ok ∧ t.blk.frmBuf = f) ∧
      (buildFrame s.cfg p (s.blk.tmFrameCnt.toNat % 2 ^ 24) = .error .tooLarge → t.blk.bres = .tooLarge) ∧
      (buildFrame s.cfg p (s.blk.tmFrameCnt.toNat % 2 ^ 24) = .error .idleShort → t.blk.bres = .idleShort)

/-- R195: the packet phase of `EMIT`, and everything else unchanged. -/
def Obligations.EmitPacketPhase : Prop :=
  ∀ s : State, s.blk.pstate = .emit → s.blk.ephase = .pkt →
    engineTurn s = .next { s with
      env := { s.env with pktOut := s.env.pktOut ++ [s.blk.pktBuf] }
      blk := { s.blk with tmPktCnt := s.blk.tmPktCnt + 1, ephase := .frm } }

/-- R196, R197: the frame phase of `EMIT` with the end of the iteration, and everything else unchanged. -/
def Obligations.EmitFramePhase : Prop :=
  ∀ s : State, s.blk.pstate = .emit → s.blk.ephase = .frm →
    engineTurn s = .next { s with
      env := { s.env with frmOut := if s.blk.bres = .ok then s.env.frmOut ++ [s.blk.frmBuf] else s.env.frmOut }
      blk := { s.blk with
        tmFrameCnt := if s.blk.bres = .ok then s.blk.tmFrameCnt + 1 else s.blk.tmFrameCnt
        lastBuild := s.blk.bres
        ephase := .pkt
        pstate := if s.blk.stopReq = true then .stopped else if s.blk.run = true then .wait else .idle
        run := if s.blk.stopReq = true then false else s.blk.run
        stopReq := false } }

/-- R198. -/
def Obligations.WakeStartsNextIteration : Prop :=
  ∀ s : State, s.blk.pstate = .wait → engineTurn s = .next { s with blk := { s.blk with pstate := .build } }

/-- R259's example: STOP just before or just after `E_EMIT_FRM` ends in `STOPPED` with the same messages. -/
def Obligations.StopAroundFramePhase : Prop :=
  ∀ s : State, s.blk.pstate = .emit → s.blk.ephase = .frm → s.blk.run = true → s.blk.stopReq = false →
    ∃ a b t, exec .stop s = .next a ∧ engineTurn a = .next t ∧ engineTurn s = .next b ∧ exec .stop b = .next t ∧
      t.blk.pstate = .stopped

/-! ## Host accesses -/

/-- R230: the value a legal read gives at each of the sixteen slots. -/
def Obligations.LegalReadValues : Prop :=
  ∀ (s : State) (off : Nat), s.cfg.Legal → off < 64 → off % 4 = 0 →
    ∃ v, memRead s (s.cfg.base + off) 4 = .value v ∧ v.toNat =
      if off = 0x00 then 0
      else if off = 0x04 then
        pstateCode s.blk.pstate + flagBit s.blk.run * 2 ^ 3 + flagBit s.blk.stopReq * 2 ^ 4 + flagBit s.blk.errCmd * 2 ^ 5 +
          buildCode s.blk.lastBuild * 2 ^ 8
      else if off = 0x08 then s.blk.tmPktCnt.toNat
      else if off = 0x0C then s.blk.tmFrameCnt.toNat
      else if off = 0x10 then s.blk.rdPos.toNat
      else if off = 0x14 then s.cfg.frameLen + s.cfg.scid * 2 ^ 16 + s.cfg.vcid * 2 ^ 24 + s.cfg.tfvn * 2 ^ 30
      else if off = 0x18 then s.cfg.idleApid
      else if off = 0x1C then s.blk.hdrId.toNat
      else if off = 0x20 then s.blk.hdrSeq.toNat + s.blk.hdrLen.toNat * 2 ^ 16
      else 0

/-- R112: the codes, the fields of `STATUS`, its reserved bits, its reset value, that it is what a read at offset `0x04`
gives, that a write there changes nothing of the block, and that `STATE` is never 7 (R121). -/
def Obligations.StatusWordLayout : Prop :=
  (pstateCode .idle = 0 ∧ pstateCode .build = 1 ∧ pstateCode .emit = 2 ∧ pstateCode .wait = 3 ∧ pstateCode .done = 4 ∧
    pstateCode .error = 5 ∧ pstateCode .stopped = 6 ∧
    buildCode .none = 0 ∧ buildCode .ok = 1 ∧ buildCode .tooLarge = 2 ∧ buildCode .idleShort = 3) ∧
  (∀ c : Config, statusWord (Block.reset c) = 0x00000000) ∧
  (∀ s : State, s.cfg.Legal → memRead s (s.cfg.base + 0x04) 4 = .value (statusWord s.blk) ∧
    ∀ v, ∃ t, hostWrite (s.cfg.base + 0x04) 4 v s = .other (.next t) ∧ t.blk = s.blk ∧ t.env = s.env ∧ t.cfg = s.cfg) ∧
  ∀ b : Block,
    (statusWord b).toNat =
      pstateCode b.pstate + flagBit b.run * 2 ^ 3 + flagBit b.stopReq * 2 ^ 4 + flagBit b.errCmd * 2 ^ 5 +
        buildCode b.lastBuild * 2 ^ 8 ∧
    ((statusWord b).extractLsb' 0 3).toNat = pstateCode b.pstate ∧ pstateCode b.pstate < 7 ∧
      ((statusWord b).extractLsb' 3 1 = 1 ↔ b.run = true) ∧ ((statusWord b).extractLsb' 4 1 = 1 ↔ b.stopReq = true) ∧
      ((statusWord b).extractLsb' 5 1 = 1 ↔ b.errCmd = true) ∧ (statusWord b).extractLsb' 6 2 = 0 ∧
      ((statusWord b).extractLsb' 8 2).toNat = buildCode b.lastBuild ∧ (statusWord b).extractLsb' 10 22 = 0

/-- R231, R229: a legal write of a command's word to `CMD` executes it, in one transition. The model's own part (log 1,
log 8): the access is the first pending event, and the host's reply is recorded. -/
def Obligations.StepRunsCommandWord : Prop :=
  ∀ (s : State) (rest : List Event) (v : Word) (i : Instr), s.cfg.Legal →
    s.host.pending = .access (.write s.cfg.base 4 v) :: rest → decode v = .ok i →
    step s = match exec i { s with host := { s.host with pending := rest } } with
      | .next t => .next { t with host := { t.host with replies := t.host.replies ++ [.accepted] } }
      | .fault f => .fault f
      | .refused r => .refused r

/-- R78, R190: an engine event is the engine's turn; with nothing pending the engine moves (log 1). -/
def Obligations.StepRunsEngine : Prop :=
  ∀ s : State, s.cfg.Legal →
    (∀ rest, s.host.pending = .engine :: rest → step s = engineTurn { s with host := { s.host with pending := rest } }) ∧
      (s.host.pending = [] → step s = engineTurn s)

/-- R280: the reset input and SRESET have the same effect, and leave the engine in `IDLE` with no step enabled. The model's
own part: the reset input is the first pending event (log 1), and the two buffers, which R41 and R281 leave unspecified, are
the same after both, being free values at the same index (log 6). -/
def Obligations.ResetInputEqualsSreset : Prop :=
  ∀ (s : State) (rest : List Event), s.cfg.Legal → s.host.pending = .resetInput :: rest →
    ∃ t, step s = .next t ∧ exec .sreset { s with host := { s.host with pending := rest } } = .next t ∧
      t.blk.pstate = .idle ∧ enabledStep t.blk = none

/-- R119, R237: a reserved word written to `CMD` sets `ERR_CMD` and changes nothing else (log 1, log 8 for the host's side). -/
def Obligations.ReservedWordSetsErrCmdOnly : Prop :=
  ∀ (s : State) (rest : List Event) (v : Word), s.cfg.Legal →
    s.host.pending = .access (.write s.cfg.base 4 v) :: rest → cmdRsv v ≠ 0 ∨ 5 ≤ (cmdOp v).toNat →
    step s = .next { s with
      blk := { s.blk with errCmd := true }
      host := { pending := rest, replies := s.host.replies ++ [.accepted] } }

/-- R76, R222, R230: a read of any address and width changes nothing; the host gets its answer (log 1, log 8). -/
def Obligations.ReadsHaveNoSideEffect : Prop :=
  ∀ (s : State) (rest : List Event) (addr width : Nat), s.cfg.Legal →
    s.host.pending = .access (.read addr width) :: rest →
    step s = .next { s with host := { pending := rest, replies := s.host.replies ++ [memRead s addr width] } }

/-- R223, R224, R231: a legal write to any slot but `CMD` changes nothing (log 1, log 8). -/
def Obligations.WritesOutsideCmdIgnored : Prop :=
  ∀ (s : State) (rest : List Event) (off : Nat) (v : Word), s.cfg.Legal → off < 64 → off % 4 = 0 → off ≠ 0 →
    s.host.pending = .access (.write (s.cfg.base + off) 4 v) :: rest →
    step s = .next { s with host := { pending := rest, replies := s.host.replies ++ [.accepted] } }

/-- R222, R257: an access in the window of another width or alignment gets a bus error, no value, and changes nothing
(log 1, log 8). -/
def Obligations.BusErrorChangesNothing : Prop :=
  ∀ (s : State) (rest : List Event) (a : Access) (off width : Nat) (v : Word), s.cfg.Legal → off < 64 →
    width ≠ 4 ∨ off % 4 ≠ 0 → a = .read (s.cfg.base + off) width ∨ a = .write (s.cfg.base + off) width v →
    s.host.pending = .access a :: rest →
    step s = .next { s with host := { pending := rest, replies := s.host.replies ++ [.busError] } }

/-- R61, R222: the block does not respond to an address outside its window, and nothing of it changes (log 1, log 8,
log 11). -/
def Obligations.OutsideWindowNoResponse : Prop :=
  ∀ (s : State) (rest : List Event) (a : Access) (addr width : Nat) (v : Word), s.cfg.Legal →
    addr < s.cfg.base ∨ s.cfg.base + 64 ≤ addr → a = .read addr width ∨ a = .write addr width v →
    s.host.pending = .access a :: rest →
    step s = .next { s with host := { pending := rest, replies := s.host.replies ++ [.noResponse] } }

/-! ## Reset, configuration, stops -/

/-- R41, R282: the values right after power-on reset, of any configuration and stream. The two buffers are the model's
choice (log 5) and are not stated. -/
def Obligations.ResetValues : Prop :=
  ∀ (c : Config) (S : List Byte), ∀ b, b = (State.resetWith c S).blk →
    b.pstate = .idle ∧ b.run = false ∧ b.stopReq = false ∧ b.errCmd = false ∧ b.lastBuild = .none ∧ b.ephase = .pkt ∧
      b.bres = .none ∧ b.tmPktCnt = 0 ∧ b.tmFrameCnt = 0 ∧ b.rdPos = 0 ∧ b.hdrId = 0 ∧ b.hdrSeq = 0 ∧ b.hdrLen = 0 ∧
      statusWord b = 0

/-- R271: a step is refused for its configuration exactly when the configuration breaks a constraint of R5 to R12
(`PACE` positive: log 4). -/
def Obligations.IllegalConfigurationRefused : Prop :=
  ∀ s : State, (∃ e, step s = .refused (.badConfig e)) ↔ ¬ s.cfg.Legal

/-- With a legal configuration and a stream within R22's bound, every transition completes: nothing the host writes and
nothing in the stream stops the machine (R250). -/
def Obligations.EveryTransitionCompletes : Prop :=
  ∀ s : State, s.cfg.Legal → s.env.StreamFits → ∃ t, step s = .next t

/-- R65, R204: with nothing pending and no engine step enabled, nothing changes (log 1). -/
def Obligations.QuiescentBlockStays : Prop :=
  ∀ s : State, s.cfg.Legal → s.host.pending = [] → s.blk.Quiescent → step s = .next s

/-- R204: at the end of a run nothing more is observed, however many transitions are looked at (log 1). -/
def Obligations.EndOfRunIsFinal : Prop :=
  ∀ (s : State) (k : Nat), s.cfg.Legal → s.host.pending = [] → s.blk.Quiescent →
    ∃ t, Host.Core.run Sys2Proof.core k s = .next t ∧ observe t = observe s

/-! ## Invariants and rules of the whole machine -/

/-- The invariant holds right after power-on reset (R41). -/
def Obligations.InvariantAtReset : Prop :=
  MachineInv State.reset ∧ ∀ (c : Config) (S : List Byte), c.Legal → S.length ≤ 2 ^ 32 - 1 → MachineInv (State.resetWith c S)

/-- R40 items 3 to 5, R23, R24, R63, R290: every transition keeps the invariant. -/
def Obligations.InvariantKept : Prop := ∀ s t : State, MachineInv s → step s = .next t → MachineInv t

/-- R40, R41: a reset begins a new history at the messages then on the ports; power-on reset begins one at 0. -/
def Obligations.HistoryBeginsAtReset : Prop :=
  (∀ s t : State, nextIsReset s = true → step s = .next t → History s.env.pktOut.length s.env.frmOut.length t) ∧
    ∀ (c : Config) (S : List Byte), History 0 0 (State.resetWith c S)

/-- R24, R40, R135, R201, R202: every transition but a reset continues the history: the counters count the messages, the
packets on `PKT_OUT` are the consumed bytes of the stream in order, and the frames on `FRM_OUT` are the frames of those
packets, in order and numbered without a gap. -/
def Obligations.HistoryKept : Prop :=
  ∀ (m n : Nat) (s t : State), MachineInv s → History m n s → nextIsReset s = false → step s = .next t → History m n t

/-- R202, R40.1, R40.2: the counter property, while neither counter has wrapped. -/
def Obligations.CounterProperty : Prop :=
  ∀ (m n : Nat) (s : State), s.cfg.Legal → History m n s → (packetsSince m s).length < 2 ^ 32 →
    s.blk.tmPktCnt.toNat = (packetsSince m s).length ∧ s.blk.tmFrameCnt.toNat = (framesSince n s).length ∧
      s.blk.tmFrameCnt.toNat ≤ s.blk.tmPktCnt.toNat ∧
      (¬ s.blk.FramePending → s.blk.tmFrameCnt.toNat =
        ((packetsSince m s).filter (fun p => decide (p.length ≤ s.cfg.frameLen - 15))).length) ∧
      (s.blk.FramePending → s.blk.tmFrameCnt.toNat =
        ((packetsSince m s).dropLast.filter (fun p => decide (p.length ≤ s.cfg.frameLen - 15))).length)

/-- R201: the `k`-th frame since reset carries sequence `k mod 2^24`. -/
def Obligations.FrameSequenceNumbers : Prop :=
  ∀ (m n : Nat) (s : State) (k : Nat) (f : List Byte), s.cfg.Legal → History m n s →
    (framesSince n s)[k]? = some f → be (slice f 2 5) = k % 2 ^ 24

/-- R261, R285, R199: a terminal state is left only by reset, and until then nothing is emitted, counted or read. -/
def Obligations.TerminalLeftOnlyByReset : Prop :=
  ∀ s t : State, s.blk.pstate.Terminal → nextIsReset s = false → step s = .next t →
    t.env = s.env ∧ t.cfg = s.cfg ∧ t.blk = { s.blk with errCmd := t.blk.errCmd }

/-- R30, R261: only reset clears `ERR_CMD`. -/
def Obligations.ErrCmdSticky : Prop :=
  ∀ s t : State, s.blk.errCmd = true → nextIsReset s = false → step s = .next t → t.blk.errCmd = true

/-- R83, R200, R224: no host access but SRESET writes a counter, the read position, a capture, a build result, a buffer or
a message. -/
def Obligations.HostCannotWriteData : Prop :=
  ∀ s t : State, nextIsAccess s = true → nextIsReset s = false → step s = .next t →
    t.cfg = s.cfg ∧ t.env = s.env ∧
      t.blk = { s.blk with pstate := t.blk.pstate, run := t.blk.run, stopReq := t.blk.stopReq, errCmd := t.blk.errCmd }

/-- R22, R23, R65, R84: no transition changes the configuration or the stream; each port only grows, by at most one message,
and never both in one transition. -/
def Obligations.PortsAppendOnly : Prop :=
  ∀ s t : State, step s = .next t →
    t.cfg = s.cfg ∧ t.env.stream = s.env.stream ∧
      ((t.env.pktOut = s.env.pktOut ∧ t.env.frmOut = s.env.frmOut) ∨
        (t.env.pktOut = s.env.pktOut ++ [s.blk.pktBuf] ∧ t.env.frmOut = s.env.frmOut) ∨
        (t.env.pktOut = s.env.pktOut ∧ t.env.frmOut = s.env.frmOut ++ [s.blk.frmBuf]))

/-- R80, R200: outside a reset a counter moves exactly with an emission, in the same transition. -/
def Obligations.CountersMoveWithEmissions : Prop :=
  ∀ s t : State, nextIsReset s = false → step s = .next t →
    t.blk.tmPktCnt = s.blk.tmPktCnt + BitVec.ofNat 32 (t.env.pktOut.length - s.env.pktOut.length) ∧
      t.blk.tmFrameCnt = s.blk.tmFrameCnt + BitVec.ofNat 32 (t.env.frmOut.length - s.env.frmOut.length)

/-- R24, R137: outside a reset the read position moves only when `E_BUILD` reads a packet, to just past that packet. -/
def Obligations.ReadPositionMovesPastPackets : Prop :=
  ∀ s t : State, nextIsReset s = false → step s = .next t → t.blk.rdPos ≠ s.blk.rdPos →
    s.blk.pstate = .build ∧ ∃ p, pktRead s.env.stream s.blk.rdPos.toNat = .ok (p, t.blk.rdPos.toNat) ∧ t.blk.pktBuf = p

/-- R203: with no more host accesses, a free run reaches a terminal state, in at most four steps for every 7 bytes left
and one more. -/
def Obligations.FreeRunReachesTerminalState : Prop :=
  ∀ s : State, MachineInv s → s.host.pending = [] → s.blk.pstate = .build → s.blk.run = true →
    ∃ k t, k ≤ 4 * ((s.env.stream.length - s.blk.rdPos.toNat) / 7) + 1 ∧
      Host.Core.run Sys2Proof.core k s = .next t ∧ t.blk.pstate.Terminal
end

