-- ==== Sys2Proof/Laws/Formats.lean ====
section
/-! SUPPORT. The small lemmas of byte sequences, big-endian fields and headers (`00_scope.md` R13, R14). -/

namespace Sys2Proof.Machine

/-! ## Lengths -/

@[simp] theorem put16_length (v : Nat) : (put16 v).length = 2 := rfl
@[simp] theorem put24_length (v : Nat) : (put24 v).length = 3 := rfl
@[simp] theorem zeros_length (n : Nat) : (zeros n).length = n := List.length_replicate

theorem slice_length (b : List Byte) (i j : Nat) : (slice b i j).length = min (j - i) (b.length - i) := by
  simp [slice]

theorem slice_length_of_le {b : List Byte} {i j : Nat} (h : j ≤ b.length) : (slice b i j).length = j - i := by
  rw [slice_length]; omega

/-! ## Slices of concatenations -/

theorem slice_append_left {a b : List Byte} {i j : Nat} (h : j ≤ a.length) : slice (a ++ b) i j = slice a i j := by
  rcases Nat.lt_or_ge i a.length with hi | hi
  · simp only [slice, List.drop_append_of_le_length (Nat.le_of_lt hi)]
    rw [List.take_append_of_le_length]
    simp; omega
  · have : j - i = 0 := by omega
    simp [slice, this]

theorem slice_append_right {a b : List Byte} {i j : Nat} (h : a.length ≤ i) :
    slice (a ++ b) i j = slice b (i - a.length) (j - a.length) := by
  have h1 : j - a.length - (i - a.length) = j - i := by omega
  simp [slice, List.drop_append, List.drop_eq_nil_of_le h, h1]

theorem slice_all {b : List Byte} {n : Nat} (h : n = b.length) : slice b 0 n = b := by
  simp [slice, h]

theorem slice_slice {b : List Byte} {i j k l : Nat} (h : i + l ≤ j) :
    slice (slice b i j) k l = slice b (i + k) (i + l) := by
  simp only [slice, List.drop_take, List.drop_drop, List.take_take]
  congr 1; omega

theorem slice_append_slice {b : List Byte} {i j k : Nat} (hij : i ≤ j) (hjk : j ≤ k) :
    slice b i j ++ slice b j k = slice b i k := by
  have h1 : b.drop j = (b.drop i).drop (j - i) := by rw [List.drop_drop]; congr 1; omega
  have h2 : k - i = (j - i) + (k - j) := by omega
  simp only [slice, h1, h2, List.take_add]

/-! ## Big-endian numbers -/

theorem be_append_singleton (b : List Byte) (x : Byte) : be (b ++ [x]) = be b * 256 + x.toNat := by
  simp [be]

/-- A number of `n` bytes is below `256 ^ n`. -/
theorem be_lt (b : List Byte) : be b < 256 ^ b.length := by
  induction b using List.reverseRecOn with
  | nil => simp [be]
  | append_singleton xs x ih =>
    rw [be_append_singleton, List.length_append, List.length_singleton, pow_succ]
    have := x.isLt
    omega

theorem be_two (x y : Byte) : be [x, y] = x.toNat * 256 + y.toNat := by simp [be]

theorem be_three (x y z : Byte) : be [x, y, z] = x.toNat * 65536 + y.toNat * 256 + z.toNat := by
  simp [be]; omega

/-- The data length field is below `2 ^ 16` (R96). -/
theorem be_slice_lt (h : List Byte) (i : Nat) : be (slice h i (i + 2)) < 65536 := by
  have h1 := be_lt (slice h i (i + 2))
  have h2 : (slice h i (i + 2)).length ≤ 2 := by rw [slice_length]; omega
  calc _ < 256 ^ (slice h i (i + 2)).length := h1
    _ ≤ 256 ^ 2 := Nat.pow_le_pow_right (by decide) h2

theorem dataLen_lt (h : List Byte) : be (slice h 4 6) < 65536 := be_slice_lt h 4

@[simp] theorem be_put16 (v : Nat) : be (put16 v) = v % 65536 := by
  simp [put16, be_two, bits]; omega

@[simp] theorem be_put24 (v : Nat) : be (put24 v) = v % 16777216 := by
  simp [put24, be_three, bits]; omega

/-- Writing a 2-byte number back gives the bytes. -/
theorem put16_be {b : List Byte} (h : b.length = 2) : put16 (be b) = b := by
  match b, h with
  | [x, y], _ =>
    have hx := x.isLt
    have hy := y.isLt
    simp only [put16, be_two, bits, List.cons.injEq, and_true]
    constructor <;> apply BitVec.eq_of_toNat_eq <;> simp <;> omega

/-! ## The frame header and the idle packet -/

@[simp] theorem frameHeader_length (c : Config) (seq : Nat) : (frameHeader c seq).length = 8 := rfl

/-- `make_idle` succeeds exactly on 7 to `MAX_PKT` bytes (R151 to R153). -/
theorem makeIdle_eq_ok {c : Config} {L : Nat} {q : List Byte} :
    makeIdle c L = .ok q ↔ (7 ≤ L ∧ L ≤ 65542) ∧ q = put16 (idleWord0 c) ++ put16 idleWord1 ++ put16 (L - 7) ++ zeros (L - 6) := by
  unfold makeIdle minIdle maxPkt
  split
  · simp; omega
  · split
    · simp; omega
    · rw [Except.ok.injEq]; constructor
      · intro h; exact ⟨by omega, h.symm⟩
      · intro h; exact h.2.symm

/-- `make_idle` gives exactly the length asked for (R150). -/
theorem makeIdle_length {c : Config} {L : Nat} {q : List Byte} (h : makeIdle c L = .ok q) : q.length = L := by
  obtain ⟨⟨h1, _⟩, rfl⟩ := makeIdle_eq_ok.mp h
  simp; omega

theorem makeIdle_eq_error {c : Config} {L : Nat} {e : IdleErr} : makeIdle c L = .error e ↔ L < 7 ∨ 65542 < L := by
  cases e
  unfold makeIdle minIdle maxPkt
  split
  · simp; omega
  · split <;> simp <;> omega

/-- What a built frame is (R105, R175). -/
theorem buildFrame_eq_ok {c : Config} {p f : List Byte} {seq : Nat} :
    buildFrame c p seq = .ok f ↔ p.length + 8 ≤ c.frameLen ∧
      ∃ q, makeIdle c (c.frameLen - 8 - p.length) = .ok q ∧ f = frameHeader c seq ++ p ++ q := by
  have hs : c.frameLen - (8 + p.length) = c.frameLen - 8 - p.length := by omega
  simp only [buildFrame, fhLen, hs]
  split
  · simp; omega
  · split
    · rename_i h; simp [h]
    · rename_i q h; simp [h, eq_comm]; omega

/-- A built frame has exactly `FRAME_LEN` bytes (R180). -/
theorem buildFrame_length {c : Config} {p f : List Byte} {seq : Nat} (h : buildFrame c p seq = .ok f) :
    f.length = c.frameLen := by
  obtain ⟨h1, q, hq, rfl⟩ := buildFrame_eq_ok.mp h
  have := makeIdle_length hq
  simp; omega

/-- A frame is built exactly when the packet leaves room for a smallest idle packet (R178). -/
theorem buildFrame_ok_iff {c : Config} {p : List Byte} {seq : Nat} (hc : c.frameLen ≤ 65535) :
    (∃ f, buildFrame c p seq = .ok f) ↔ p.length + 15 ≤ c.frameLen := by
  constructor
  · rintro ⟨f, h⟩
    obtain ⟨h1, q, hq, _⟩ := buildFrame_eq_ok.mp h
    have := (makeIdle_eq_ok.mp hq).1
    omega
  · intro h
    exact ⟨_, buildFrame_eq_ok.mpr ⟨by omega, _, makeIdle_eq_ok.mpr ⟨by omega, rfl⟩, rfl⟩⟩

/-! ## The parser -/

theorem streamRead_eq_some {S b : List Byte} {pos n : Nat} :
    streamRead S pos n = some b ↔ pos + n ≤ S.length ∧ b = slice S pos (pos + n) := by
  unfold streamRead
  split <;> simp [eq_comm] <;> omega

theorem streamRead_eq_none {S : List Byte} {pos n : Nat} : streamRead S pos n = none ↔ S.length < pos + n := by
  unfold streamRead
  split <;> simp <;> omega

/-- `EOS`: fewer than 6 bytes remain (R133). -/
theorem pktRead_eq_eos {S : List Byte} {pos : Nat} : pktRead S pos = .error .eos ↔ S.length < pos + 6 := by
  rw [← streamRead_eq_none]
  unfold pktRead phLen
  split
  · simp_all
  · simp only [‹streamRead S pos 6 = _›]
    split <;> simp

/-- `CORRUPT`: the header is there and its body is cut short (R134). -/
theorem pktRead_eq_corrupt {S h : List Byte} {pos : Nat} : pktRead S pos = .error (.corrupt h) ↔
    pos + 6 ≤ S.length ∧ h = slice S pos (pos + 6) ∧ S.length < pos + 7 + be (slice h 4 6) := by
  unfold pktRead phLen
  split
  · rename_i h1
    have := streamRead_eq_none.mp h1
    simp; omega
  · rename_i g h1
    obtain ⟨h2, rfl⟩ := streamRead_eq_some.mp h1
    simp only
    split
    · rename_i h3
      have := streamRead_eq_none.mp h3
      simp only [Except.error.injEq, PktErr.corrupt.injEq]
      constructor
      · rintro rfl; exact ⟨h2, rfl, by omega⟩
      · rintro ⟨_, rfl, _⟩; rfl
    · rename_i h3
      have := (streamRead_eq_some.mp h3).1
      simp only [reduceCtorEq, false_iff, not_and, not_lt]
      rintro _ rfl; omega

/-- A packet read whole: its bytes are the stream's, up to the next boundary (R132, R136). -/
theorem pktRead_eq_ok {S p : List Byte} {pos pos' : Nat} : pktRead S pos = .ok (p, pos') ↔
    pos' = pos + 7 + be (slice S (pos + 4) (pos + 6)) ∧ pos' ≤ S.length ∧ p = slice S pos pos' := by
  unfold pktRead phLen
  split
  · rename_i h1
    have := streamRead_eq_none.mp h1
    simp; omega
  · rename_i g h1
    obtain ⟨h2, rfl⟩ := streamRead_eq_some.mp h1
    have hd : be (slice (slice S pos (pos + 6)) 4 6) = be (slice S (pos + 4) (pos + 6)) := by rw [slice_slice (by omega)]
    simp only [hd]
    split
    · rename_i h3
      have := streamRead_eq_none.mp h3
      simp; omega
    · rename_i body h3
      obtain ⟨h4, rfl⟩ := streamRead_eq_some.mp h3
      rw [slice_append_slice (by omega) (by omega)]
      simp only [Except.ok.injEq, Prod.mk.injEq]
      have hn : pos + 6 + (be (slice S (pos + 4) (pos + 6)) + 1) = pos + 7 + be (slice S (pos + 4) (pos + 6)) := by omega
      rw [hn]
      constructor
      · rintro ⟨rfl, rfl⟩; exact ⟨rfl, by omega, rfl⟩
      · rintro ⟨rfl, _, rfl⟩; exact ⟨rfl, rfl⟩

/-- A read packet has 7 to `MAX_PKT` bytes and ends at the next boundary (R136). -/
theorem pktRead_length {S p : List Byte} {pos pos' : Nat} (h : pktRead S pos = .ok (p, pos')) :
    7 ≤ p.length ∧ p.length ≤ maxPkt ∧ pos' = pos + p.length := by
  obtain ⟨h1, h2, rfl⟩ := pktRead_eq_ok.mp h
  have : be (slice S (pos + 4) (pos + 6)) < 65536 := be_slice_lt S (pos + 4)
  rw [slice_length_of_le h2]
  simp only [maxPkt]; omega

end Sys2Proof.Machine
end

