-- ==== Sys2Proof/Laws/State.lean ====
section
/-! SUPPORT. One lemma per field (or untouched part) per named update of the state, true by rfl. -/

namespace Sys2Proof.Machine

@[simp] theorem enterTerminal_cfg (p : PState) (s : State) : (enterTerminal p s).cfg = s.cfg := rfl
@[simp] theorem enterTerminal_blk_rdPos (p : PState) (s : State) : (enterTerminal p s).blk.rdPos = s.blk.rdPos := rfl
@[simp] theorem enterTerminal_blk_tmPktCnt (p : PState) (s : State) : (enterTerminal p s).blk.tmPktCnt = s.blk.tmPktCnt := rfl
@[simp] theorem enterTerminal_blk_tmFrameCnt (p : PState) (s : State) : (enterTerminal p s).blk.tmFrameCnt = s.blk.tmFrameCnt := rfl
@[simp] theorem enterTerminal_blk_pstate (p : PState) (s : State) : (enterTerminal p s).blk.pstate = p := rfl
@[simp] theorem enterTerminal_blk_run (p : PState) (s : State) : (enterTerminal p s).blk.run = false := rfl
@[simp] theorem enterTerminal_blk_stopReq (p : PState) (s : State) : (enterTerminal p s).blk.stopReq = false := rfl
@[simp] theorem enterTerminal_blk_errCmd (p : PState) (s : State) : (enterTerminal p s).blk.errCmd = s.blk.errCmd := rfl
@[simp] theorem enterTerminal_blk_lastBuild (p : PState) (s : State) : (enterTerminal p s).blk.lastBuild = s.blk.lastBuild := rfl
@[simp] theorem enterTerminal_blk_ephase (p : PState) (s : State) : (enterTerminal p s).blk.ephase = s.blk.ephase := rfl
@[simp] theorem enterTerminal_blk_bres (p : PState) (s : State) : (enterTerminal p s).blk.bres = s.blk.bres := rfl
@[simp] theorem enterTerminal_blk_pktBuf (p : PState) (s : State) : (enterTerminal p s).blk.pktBuf = s.blk.pktBuf := rfl
@[simp] theorem enterTerminal_blk_frmBuf (p : PState) (s : State) : (enterTerminal p s).blk.frmBuf = s.blk.frmBuf := rfl
@[simp] theorem enterTerminal_blk_hdrId (p : PState) (s : State) : (enterTerminal p s).blk.hdrId = s.blk.hdrId := rfl
@[simp] theorem enterTerminal_blk_hdrSeq (p : PState) (s : State) : (enterTerminal p s).blk.hdrSeq = s.blk.hdrSeq := rfl
@[simp] theorem enterTerminal_blk_hdrLen (p : PState) (s : State) : (enterTerminal p s).blk.hdrLen = s.blk.hdrLen := rfl
@[simp] theorem enterTerminal_env (p : PState) (s : State) : (enterTerminal p s).env = s.env := rfl
@[simp] theorem enterTerminal_host (p : PState) (s : State) : (enterTerminal p s).host = s.host := rfl
@[simp] theorem enterTerminal_freeCtr (p : PState) (s : State) : (enterTerminal p s).freeCtr = s.freeCtr := rfl

@[simp] theorem illegalCmd_cfg (s : State) : (illegalCmd s).cfg = s.cfg := rfl
@[simp] theorem illegalCmd_blk_rdPos (s : State) : (illegalCmd s).blk.rdPos = s.blk.rdPos := rfl
@[simp] theorem illegalCmd_blk_tmPktCnt (s : State) : (illegalCmd s).blk.tmPktCnt = s.blk.tmPktCnt := rfl
@[simp] theorem illegalCmd_blk_tmFrameCnt (s : State) : (illegalCmd s).blk.tmFrameCnt = s.blk.tmFrameCnt := rfl
@[simp] theorem illegalCmd_blk_pstate (s : State) : (illegalCmd s).blk.pstate = s.blk.pstate := rfl
@[simp] theorem illegalCmd_blk_run (s : State) : (illegalCmd s).blk.run = s.blk.run := rfl
@[simp] theorem illegalCmd_blk_stopReq (s : State) : (illegalCmd s).blk.stopReq = s.blk.stopReq := rfl
@[simp] theorem illegalCmd_blk_errCmd (s : State) : (illegalCmd s).blk.errCmd = true := rfl
@[simp] theorem illegalCmd_blk_lastBuild (s : State) : (illegalCmd s).blk.lastBuild = s.blk.lastBuild := rfl
@[simp] theorem illegalCmd_blk_ephase (s : State) : (illegalCmd s).blk.ephase = s.blk.ephase := rfl
@[simp] theorem illegalCmd_blk_bres (s : State) : (illegalCmd s).blk.bres = s.blk.bres := rfl
@[simp] theorem illegalCmd_blk_pktBuf (s : State) : (illegalCmd s).blk.pktBuf = s.blk.pktBuf := rfl
@[simp] theorem illegalCmd_blk_frmBuf (s : State) : (illegalCmd s).blk.frmBuf = s.blk.frmBuf := rfl
@[simp] theorem illegalCmd_blk_hdrId (s : State) : (illegalCmd s).blk.hdrId = s.blk.hdrId := rfl
@[simp] theorem illegalCmd_blk_hdrSeq (s : State) : (illegalCmd s).blk.hdrSeq = s.blk.hdrSeq := rfl
@[simp] theorem illegalCmd_blk_hdrLen (s : State) : (illegalCmd s).blk.hdrLen = s.blk.hdrLen := rfl
@[simp] theorem illegalCmd_env (s : State) : (illegalCmd s).env = s.env := rfl
@[simp] theorem illegalCmd_host (s : State) : (illegalCmd s).host = s.host := rfl
@[simp] theorem illegalCmd_freeCtr (s : State) : (illegalCmd s).freeCtr = s.freeCtr := rfl

@[simp] theorem captureHeader_cfg (h : List Byte) (s : State) : (captureHeader h s).cfg = s.cfg := rfl
@[simp] theorem captureHeader_blk_rdPos (h : List Byte) (s : State) : (captureHeader h s).blk.rdPos = s.blk.rdPos := rfl
@[simp] theorem captureHeader_blk_tmPktCnt (h : List Byte) (s : State) : (captureHeader h s).blk.tmPktCnt = s.blk.tmPktCnt := rfl
@[simp] theorem captureHeader_blk_tmFrameCnt (h : List Byte) (s : State) : (captureHeader h s).blk.tmFrameCnt = s.blk.tmFrameCnt := rfl
@[simp] theorem captureHeader_blk_pstate (h : List Byte) (s : State) : (captureHeader h s).blk.pstate = s.blk.pstate := rfl
@[simp] theorem captureHeader_blk_run (h : List Byte) (s : State) : (captureHeader h s).blk.run = s.blk.run := rfl
@[simp] theorem captureHeader_blk_stopReq (h : List Byte) (s : State) : (captureHeader h s).blk.stopReq = s.blk.stopReq := rfl
@[simp] theorem captureHeader_blk_errCmd (h : List Byte) (s : State) : (captureHeader h s).blk.errCmd = s.blk.errCmd := rfl
@[simp] theorem captureHeader_blk_lastBuild (h : List Byte) (s : State) : (captureHeader h s).blk.lastBuild = s.blk.lastBuild := rfl
@[simp] theorem captureHeader_blk_ephase (h : List Byte) (s : State) : (captureHeader h s).blk.ephase = s.blk.ephase := rfl
@[simp] theorem captureHeader_blk_bres (h : List Byte) (s : State) : (captureHeader h s).blk.bres = s.blk.bres := rfl
@[simp] theorem captureHeader_blk_pktBuf (h : List Byte) (s : State) : (captureHeader h s).blk.pktBuf = s.blk.pktBuf := rfl
@[simp] theorem captureHeader_blk_frmBuf (h : List Byte) (s : State) : (captureHeader h s).blk.frmBuf = s.blk.frmBuf := rfl
@[simp] theorem captureHeader_blk_hdrId (h : List Byte) (s : State) : (captureHeader h s).blk.hdrId = BitVec.ofNat 16 (be (slice h 0 2)) := rfl
@[simp] theorem captureHeader_blk_hdrSeq (h : List Byte) (s : State) : (captureHeader h s).blk.hdrSeq = BitVec.ofNat 16 (be (slice h 2 4)) := rfl
@[simp] theorem captureHeader_blk_hdrLen (h : List Byte) (s : State) : (captureHeader h s).blk.hdrLen = BitVec.ofNat 16 (be (slice h 4 6)) := rfl
@[simp] theorem captureHeader_env (h : List Byte) (s : State) : (captureHeader h s).env = s.env := rfl
@[simp] theorem captureHeader_host (h : List Byte) (s : State) : (captureHeader h s).host = s.host := rfl
@[simp] theorem captureHeader_freeCtr (h : List Byte) (s : State) : (captureHeader h s).freeCtr = s.freeCtr := rfl

@[simp] theorem emitPkt_cfg (m : List Byte) (s : State) : (emitPkt m s).cfg = s.cfg := rfl
@[simp] theorem emitPkt_blk (m : List Byte) (s : State) : (emitPkt m s).blk = s.blk := rfl
@[simp] theorem emitPkt_env_stream (m : List Byte) (s : State) : (emitPkt m s).env.stream = s.env.stream := rfl
@[simp] theorem emitPkt_env_pktOut (m : List Byte) (s : State) : (emitPkt m s).env.pktOut = s.env.pktOut ++ [m] := rfl
@[simp] theorem emitPkt_env_frmOut (m : List Byte) (s : State) : (emitPkt m s).env.frmOut = s.env.frmOut := rfl
@[simp] theorem emitPkt_host (m : List Byte) (s : State) : (emitPkt m s).host = s.host := rfl
@[simp] theorem emitPkt_freeCtr (m : List Byte) (s : State) : (emitPkt m s).freeCtr = s.freeCtr := rfl

@[simp] theorem emitFrm_cfg (m : List Byte) (s : State) : (emitFrm m s).cfg = s.cfg := rfl
@[simp] theorem emitFrm_blk (m : List Byte) (s : State) : (emitFrm m s).blk = s.blk := rfl
@[simp] theorem emitFrm_env_stream (m : List Byte) (s : State) : (emitFrm m s).env.stream = s.env.stream := rfl
@[simp] theorem emitFrm_env_pktOut (m : List Byte) (s : State) : (emitFrm m s).env.pktOut = s.env.pktOut := rfl
@[simp] theorem emitFrm_env_frmOut (m : List Byte) (s : State) : (emitFrm m s).env.frmOut = s.env.frmOut ++ [m] := rfl
@[simp] theorem emitFrm_host (m : List Byte) (s : State) : (emitFrm m s).host = s.host := rfl
@[simp] theorem emitFrm_freeCtr (m : List Byte) (s : State) : (emitFrm m s).freeCtr = s.freeCtr := rfl

@[simp] theorem giveReply_cfg (r : Reply) (s : State) : (giveReply r s).cfg = s.cfg := rfl
@[simp] theorem giveReply_blk (r : Reply) (s : State) : (giveReply r s).blk = s.blk := rfl
@[simp] theorem giveReply_env (r : Reply) (s : State) : (giveReply r s).env = s.env := rfl
@[simp] theorem giveReply_host_pending (r : Reply) (s : State) : (giveReply r s).host.pending = s.host.pending := rfl
@[simp] theorem giveReply_host_replies (r : Reply) (s : State) : (giveReply r s).host.replies = s.host.replies ++ [r] := rfl
@[simp] theorem giveReply_freeCtr (r : Reply) (s : State) : (giveReply r s).freeCtr = s.freeCtr := rfl

@[simp] theorem setPending_cfg (es : List Event) (s : State) : (setPending es s).cfg = s.cfg := rfl
@[simp] theorem setPending_blk (es : List Event) (s : State) : (setPending es s).blk = s.blk := rfl
@[simp] theorem setPending_env (es : List Event) (s : State) : (setPending es s).env = s.env := rfl
@[simp] theorem setPending_host_pending (es : List Event) (s : State) : (setPending es s).host.pending = es := rfl
@[simp] theorem setPending_host_replies (es : List Event) (s : State) : (setPending es s).host.replies = s.host.replies := rfl
@[simp] theorem setPending_freeCtr (es : List Event) (s : State) : (setPending es s).freeCtr = s.freeCtr := rfl

@[simp] theorem doReset_cfg (s : State) : (doReset s).cfg = s.cfg := rfl
@[simp] theorem doReset_blk_rdPos (s : State) : (doReset s).blk.rdPos = 0 := rfl
@[simp] theorem doReset_blk_tmPktCnt (s : State) : (doReset s).blk.tmPktCnt = 0 := rfl
@[simp] theorem doReset_blk_tmFrameCnt (s : State) : (doReset s).blk.tmFrameCnt = 0 := rfl
@[simp] theorem doReset_blk_pstate (s : State) : (doReset s).blk.pstate = .idle := rfl
@[simp] theorem doReset_blk_run (s : State) : (doReset s).blk.run = false := rfl
@[simp] theorem doReset_blk_stopReq (s : State) : (doReset s).blk.stopReq = false := rfl
@[simp] theorem doReset_blk_errCmd (s : State) : (doReset s).blk.errCmd = false := rfl
@[simp] theorem doReset_blk_lastBuild (s : State) : (doReset s).blk.lastBuild = .none := rfl
@[simp] theorem doReset_blk_ephase (s : State) : (doReset s).blk.ephase = .pkt := rfl
@[simp] theorem doReset_blk_bres (s : State) : (doReset s).blk.bres = .none := rfl
@[simp] theorem doReset_blk_pktBuf (s : State) : (doReset s).blk.pktBuf = freePktBuf s.freeCtr := rfl
@[simp] theorem doReset_blk_frmBuf (s : State) : (doReset s).blk.frmBuf = freeFrmBuf s.cfg s.freeCtr := rfl
@[simp] theorem doReset_blk_hdrId (s : State) : (doReset s).blk.hdrId = 0 := rfl
@[simp] theorem doReset_blk_hdrSeq (s : State) : (doReset s).blk.hdrSeq = 0 := rfl
@[simp] theorem doReset_blk_hdrLen (s : State) : (doReset s).blk.hdrLen = 0 := rfl
@[simp] theorem doReset_env (s : State) : (doReset s).env = s.env := rfl
@[simp] theorem doReset_host (s : State) : (doReset s).host = s.host := rfl
@[simp] theorem doReset_freeCtr (s : State) : (doReset s).freeCtr = s.freeCtr + 1 := rfl

end Sys2Proof.Machine
end

