-- ==== Sys2Proof/Laws/Transitions.lean ====
section
/-! SUPPORT. What a command, an engine step and a transition can do, each said once: later proofs cite these case lists
instead of unfolding `exec`, `engineTurn` and `step`. -/

namespace Sys2Proof.Machine

/-! ## The decoder -/

/-- Every row compares the whole word (R118, R229). -/
theorem row_matches_iff (m : String) (x : Word) (i : Instr) (v : Word) :
    OpcodeRow.matches ⟨m, x, 0xFFFFFFFF, i⟩ v = true ↔ v = x := by
  have hm : v &&& (0xFFFFFFFF : Word) = v := BitVec.and_allOnes
  simp only [OpcodeRow.matches, beq_iff_eq]
  rw [hm]

/-- Command decode compares the whole word (R229). -/
theorem decode_eq_ok {v : Word} {i : Instr} : decode v = .ok i ↔ v = encode i := by
  constructor
  · intro h
    unfold decode at h
    split at h
    · rename_i r hr
      have hmem := List.mem_of_find?_eq_some hr
      have hmat := List.find?_some hr
      cases h
      simp only [opcodeTable, List.mem_cons, List.not_mem_nil, or_false] at hmem
      rcases hmem with rfl | rfl | rfl | rfl | rfl <;> exact (row_matches_iff _ _ _ _).mp hmat
    · cases h
  · rintro rfl
    cases i <;> decide

/-- Every word is a command's word or is rejected by name (R119). -/
theorem decode_total (v : Word) : (∃ i, decode v = .ok i) ∨ ∃ e, decode v = .error e := by
  cases decode v with
  | ok i => exact .inl ⟨i, rfl⟩
  | error e => exact .inr ⟨e, rfl⟩

/-! ## The configuration check -/

/-- The block is built exactly for a legal configuration (R271). -/
theorem configProblem_eq_none {c : Config} : configProblem c = none ↔ c.Legal := by
  unfold configProblem Config.Legal
  repeat' split
  all_goals (simp; try omega)

/-! ## Commands -/

/-- What a command can do. -/
theorem exec_cases {i : Instr} {s t : State} (h : exec i s = .next t) :
    (t = s ∧ (i = .nop ∨ i = .stop ∧ s.blk.pstate.Terminal)) ∨
    (t = illegalCmd s ∧ (i = .start ∨ i = .step) ∧ s.blk.pstate ≠ .idle) ∨
    (∃ r, t = { s with blk := { s.blk with run := r, pstate := .build } } ∧ s.blk.pstate = .idle ∧
      (i = .start ∧ r = true ∨ i = .step ∧ r = false)) ∨
    (t = enterTerminal .stopped s ∧ i = .stop ∧ (s.blk.pstate = .idle ∨ s.blk.pstate = .wait)) ∨
    (t = { s with blk := { s.blk with stopReq := true } } ∧ i = .stop ∧ (s.blk.pstate = .build ∨ s.blk.pstate = .emit)) ∨
    (t = doReset s ∧ i = .sreset) := by
  cases i with
  | nop => cases h; simp
  | start =>
    simp only [exec, execStart, beginRun] at h
    split at h <;> cases h <;> simp_all
  | step =>
    simp only [exec, execStep, beginRun] at h
    split at h <;> cases h <;> simp_all
  | stop =>
    simp only [exec, execStop] at h
    split at h <;> cases h <;> simp_all [PState.Terminal]
  | sreset => cases h; simp

/-- No command stops the machine. -/
theorem exec_completes (i : Instr) (s : State) : ∃ t, exec i s = .next t := by
  cases i with
  | nop => exact ⟨_, rfl⟩
  | start => exact ⟨_, rfl⟩
  | step => exact ⟨_, rfl⟩
  | stop => simp only [exec, execStop]; split <;> exact ⟨_, rfl⟩
  | sreset => exact ⟨_, rfl⟩

/-! ## The engine -/

/-- What `E_BUILD` does, by what the parser reports (R192). -/
theorem eBuild_eos {s : State} (hs : s.env.StreamFits) (h : pktRead s.env.stream s.blk.rdPos.toNat = .error .eos) :
    eBuild s = .next (enterTerminal .done s) := by
  simp only [eBuild, if_pos hs, h]

theorem eBuild_corrupt {s : State} {g : List Byte} (hs : s.env.StreamFits)
    (h : pktRead s.env.stream s.blk.rdPos.toNat = .error (.corrupt g)) :
    eBuild s = .next (enterTerminal .error (captureHeader g s)) := by
  simp only [eBuild, if_pos hs, h]

theorem eBuild_ok {s : State} {p : List Byte} {pos' : Nat} (hs : s.env.StreamFits)
    (h : pktRead s.env.stream s.blk.rdPos.toNat = .ok (p, pos')) : eBuild s = .next (loadPacket p pos' s) := by
  simp only [eBuild, if_pos hs, h]

/-- The frame phase and the end of the iteration in one record (R196, R197). -/
theorem eEmitFrm_eq (s : State) : eEmitFrm s = { s with
    env := { s.env with frmOut := if s.blk.bres = .ok then s.env.frmOut ++ [s.blk.frmBuf] else s.env.frmOut }
    blk := { s.blk with
      tmFrameCnt := if s.blk.bres = .ok then s.blk.tmFrameCnt + 1 else s.blk.tmFrameCnt
      lastBuild := s.blk.bres
      ephase := .pkt
      pstate := if s.blk.stopReq = true then .stopped else if s.blk.run = true then .wait else .idle
      run := if s.blk.stopReq = true then false else s.blk.run
      stopReq := false } } := by
  unfold eEmitFrm emitBuiltFrame endOfIteration
  by_cases h1 : s.blk.bres = .ok <;> by_cases h2 : s.blk.stopReq = true <;> by_cases h3 : s.blk.run = true <;>
    simp_all [emitFrm, enterTerminal]

/-- What the engine's turn can do. -/
theorem engineTurn_cases {s t : State} (h : engineTurn s = .next t) :
    (t = s ∧ s.blk.Quiescent) ∨
    (s.blk.pstate = .build ∧ s.env.StreamFits ∧
      ((pktRead s.env.stream s.blk.rdPos.toNat = .error .eos ∧ t = enterTerminal .done s) ∨
       (∃ g, pktRead s.env.stream s.blk.rdPos.toNat = .error (.corrupt g) ∧ t = enterTerminal .error (captureHeader g s)) ∨
       (∃ p pos', pktRead s.env.stream s.blk.rdPos.toNat = .ok (p, pos') ∧ t = loadPacket p pos' s))) ∨
    (s.blk.PacketPending ∧ t = eEmitPkt s) ∨ (s.blk.FramePending ∧ t = eEmitFrm s) ∨
    (s.blk.pstate = .wait ∧ t = eWake s) := by
  unfold engineTurn enabledStep at h
  split at h
  · rename_i e he
    split at he <;> cases he
    · rename_i hp
      simp only [runEngineStep, eBuild] at h
      split at h
      · rename_i hs
        refine .inr (.inl ⟨hp, hs, ?_⟩)
        split at h <;> cases h <;> rename_i hr
        · exact .inl ⟨hr, rfl⟩
        · exact .inr (.inl ⟨_, hr, rfl⟩)
        · exact .inr (.inr ⟨_, _, hr, rfl⟩)
      · cases h
    · rename_i hp hq
      cases h
      exact .inr (.inr (.inl ⟨⟨hp, hq⟩, rfl⟩))
    · rename_i hp hq
      cases h
      exact .inr (.inr (.inr (.inl ⟨⟨hp, hq⟩, rfl⟩)))
    · rename_i hp
      cases h
      exact .inr (.inr (.inr (.inr ⟨hp, rfl⟩)))
  · rename_i he
    cases h
    refine .inl ⟨rfl, ?_⟩
    split at he <;> first | (cases he; done) | skip
    all_goals
      rename_i hp
      simp only [Block.Quiescent, PState.Terminal, hp]
      simp

/-- The engine's turn completes whenever the stream is one the spec gives a meaning (R22). -/
theorem engineTurn_completes {s : State} (hs : s.env.StreamFits) : ∃ t, engineTurn s = .next t := by
  unfold engineTurn
  split
  · rename_i e _
    cases e with
    | eBuild => simp only [runEngineStep, eBuild, if_pos hs]; split <;> exact ⟨_, rfl⟩
    | eEmitPkt => exact ⟨_, rfl⟩
    | eEmitFrm => exact ⟨_, rfl⟩
    | eWake => exact ⟨_, rfl⟩
  · exact ⟨_, rfl⟩

/-! ## The whole step -/

/-- What a write can lead to (R231, R237). -/
theorem hostWrite_cases (addr width : Nat) (v : Word) (s : State) :
    (accessTarget s.cfg addr width = .slot 0 ∧ ∃ i, decode v = .ok i ∧ hostWrite addr width v s = .command i s) ∨
    (accessTarget s.cfg addr width = .slot 0 ∧ (∃ e, decode v = .error e) ∧
      hostWrite addr width v s = .other (.next (giveReply .accepted (illegalCmd s)))) ∨
    (accessTarget s.cfg addr width ≠ .slot 0 ∧ ∃ r, hostWrite addr width v s = .other (.next (giveReply r s))) := by
  unfold hostWrite
  cases ht : accessTarget s.cfg addr width with
  | outside => exact .inr (.inr ⟨by simp, _, rfl⟩)
  | illegal => exact .inr (.inr ⟨by simp, _, rfl⟩)
  | slot off =>
    by_cases ho : off = 0
    · subst ho
      cases hd : decode v <;> simp
    · exact .inr (.inr ⟨by simpa using ho, _, if_neg ho⟩)

/-- What a step can do. -/
theorem step_cases {s t : State} (h : step s = .next t) : s.cfg.Legal ∧
    ((∃ u, (u = s ∧ s.host.pending = [] ∨ ∃ rest, s.host.pending = .engine :: rest ∧ u = setPending rest s) ∧
        engineTurn u = .next t) ∨
     (∃ rest, s.host.pending = .resetInput :: rest ∧ t = doReset (setPending rest s)) ∨
     (∃ rest addr width v, s.host.pending = .access (.write addr width v) :: rest ∧
        accessTarget s.cfg addr width = .slot 0 ∧
        ((∃ i u, v = encode i ∧ exec i (setPending rest s) = .next u ∧ t = giveReply .accepted u) ∨
         (∃ e, decode v = .error e ∧ t = giveReply .accepted (illegalCmd (setPending rest s))))) ∨
     (∃ rest a r, s.host.pending = .access a :: rest ∧ t = giveReply r (setPending rest s) ∧
        ∀ addr width v, a = .write addr width v → accessTarget s.cfg addr width ≠ .slot 0)) := by
  have hstep : ∀ o, fetch s = .other o → o = .next t := by
    intro o ho; simpa only [step, ho] using h
  cases hc : configProblem s.cfg with
  | some e =>
    have := hstep _ (by simp only [fetch, hc]; rfl)
    cases this
  | none =>
    refine ⟨configProblem_eq_none.mp hc, ?_⟩
    cases hp : s.host.pending with
    | nil =>
      have := hstep (engineTurn s) (by simp only [fetch, hc, hp])
      exact .inl ⟨s, .inl ⟨rfl, rfl⟩, this⟩
    | cons e rest =>
      cases e with
      | engine =>
        have := hstep (engineTurn (setPending rest s)) (by simp only [fetch, hc, hp, takeEvent])
        exact .inl ⟨_, .inr ⟨rest, rfl, rfl⟩, this⟩
      | resetInput =>
        have := hstep (.next (doReset (setPending rest s))) (by simp only [fetch, hc, hp, takeEvent])
        cases this
        exact .inr (.inl ⟨rest, rfl, rfl⟩)
      | access a =>
        cases a with
        | read addr width =>
          have := hstep (.next (giveReply (memRead (setPending rest s) addr width) (setPending rest s)))
            (by simp only [fetch, hc, hp, takeEvent, hostAccess])
          cases this
          exact .inr (.inr (.inr ⟨rest, _, _, rfl, rfl, by simp⟩))
        | write addr width v =>
          have hf : fetch s = hostWrite addr width v (setPending rest s) := by
            simp only [fetch, hc, hp, takeEvent, hostAccess]
          rcases hostWrite_cases addr width v (setPending rest s) with ⟨ht, i, hd, hw⟩ | ⟨ht, ⟨e, hd⟩, hw⟩ | ⟨ht, r, hw⟩
          · rw [hw] at hf
            obtain ⟨u, hu⟩ := exec_completes i (setPending rest s)
            have : step s = .next (giveReply .accepted u) := by simp only [step, hf, hu, finishCommand]
            rw [h] at this
            cases this
            exact .inr (.inr (.inl ⟨rest, addr, width, v, rfl, ht, .inl ⟨i, u, decode_eq_ok.mp hd, hu, rfl⟩⟩))
          · rw [hw] at hf
            have := hstep _ hf
            cases this
            exact .inr (.inr (.inl ⟨rest, addr, width, v, rfl, ht, .inr ⟨e, hd, rfl⟩⟩))
          · rw [hw] at hf
            have := hstep _ hf
            cases this
            refine .inr (.inr (.inr ⟨rest, _, r, rfl, rfl, ?_⟩))
            rintro _ _ _ ⟨⟩
            exact ht

end Sys2Proof.Machine
end

