-- ==== Sys2Proof/Laws/History.lean ====
section
/-! SUPPORT. The environment's form under the emissions, the phases of `EMIT`, and the frames of a list of packets. -/

namespace Sys2Proof.Machine

/-! ## The environment -/

/-- An emitted packet of a legal length keeps the environment's form (R23, R63). -/
theorem envWf_emitPkt {s : State} {m : List Byte} (h : s.env.Wf s.cfg) (hm : 7 ≤ m.length ∧ m.length ≤ maxPkt) :
    (emitPkt m s).env.Wf (emitPkt m s).cfg :=
  ⟨h.stream, fun x hx => (List.mem_append.mp hx).elim (h.packets x) fun h' => List.mem_singleton.mp h' ▸ hm, h.frames⟩

/-- An emitted frame of length `FRAME_LEN` keeps the environment's form (R23, R63). -/
theorem envWf_emitFrm {s : State} {m : List Byte} (h : s.env.Wf s.cfg) (hm : m.length = s.cfg.frameLen) :
    (emitFrm m s).env.Wf (emitFrm m s).cfg :=
  ⟨h.stream, h.packets, fun x hx => (List.mem_append.mp hx).elim (h.frames x) fun h' => List.mem_singleton.mp h' ▸ hm⟩

/-- The environment at power-on has that form (R41). -/
theorem envWf_resetWith (c : Config) {S : List Byte} (h : S.length ≤ 2 ^ 32 - 1) : (State.resetWith c S).env.Wf c :=
  ⟨h, fun _ hm => absurd hm List.not_mem_nil, fun _ hm => absurd hm List.not_mem_nil⟩

/-! ## The phases of EMIT -/

@[simp] theorem framePending_iff (b : Block) : b.FramePending ↔ b.pstate = .emit ∧ b.ephase = .frm := Iff.rfl

@[simp] theorem packetPending_iff (b : Block) : b.PacketPending ↔ b.pstate = .emit ∧ b.ephase = .pkt := Iff.rfl

/-! ## Numbered frames -/

/-- The frames of two lists of packets in a row: the second continues the numbers of the first (R201). -/
theorem framesFrom_append (c : Config) (xs ys : List (List Byte)) (k : Nat) :
    framesFrom c k (xs ++ ys) = framesFrom c k xs ++ framesFrom c (k + (framesFrom c k xs).length) ys := by
  induction xs generalizing k with
  | nil => simp [framesFrom]
  | cons x xs ih =>
    simp only [List.cons_append, framesFrom]
    split
    · rw [ih, List.cons_append, List.length_cons, Nat.add_assoc, Nat.add_comm 1]
    · rw [ih]

/-- What is taken of a stream, and the next slice, are what is taken up to its end (R62). -/
theorem take_append_slice (S : List Byte) {i j : Nat} (h : i ≤ j) : S.take i ++ slice S i j = S.take j := by
  have hj : j = i + (j - i) := by omega
  rw [slice]
  conv_rhs => rw [hj, List.take_add]

/-- A stream position of a read packet fits the 32 bits of `RD_POS` (R138). -/
theorem rdPos_exact {S p : List Byte} {pos pos' : Nat} (hS : S.length ≤ 2 ^ 32 - 1) (h : pktRead S pos = .ok (p, pos')) :
    (BitVec.ofNat 32 pos').toNat = pos' := by
  have := (pktRead_eq_ok.mp h).2.1
  simp only [BitVec.toNat_ofNat]
  omega

end Sys2Proof.Machine
end

