-- ==== Sys2Proof/Laws/PerInstr.lean ====
section
/-! SUPPORT. Per command: its word (R91, R118) is well formed, has `RSV = 0`, and decodes to it. -/

namespace Sys2Proof.Laws.Encoding

/-- What holds of every command's encoding. -/
def Statement (i : Instr) : Prop :=
  i.WellFormed = true ∧ cmdRsv (encode i) = 0 ∧ cmdOp (encode i) = opcodeOf i ∧ decode (encode i) = .ok i

theorem nop : Statement .nop := by unfold Statement; decide
theorem start : Statement .start := by unfold Statement; decide
theorem step : Statement .step := by unfold Statement; decide
theorem stop : Statement .stop := by unfold Statement; decide
theorem sreset : Statement .sreset := by unfold Statement; decide

end Sys2Proof.Laws.Encoding
end

