-- ==== Sys2Proof/Tests/Slice0.lean ====
section
/-! SUPPORT. Our own checks: the vectors of `95_test_vectors.md` (their values are the spec's), the decoder on words written
out from the spec's encodings, the well-formedness smoke, and for each statement a state that meets its hypotheses. -/

namespace Sys2Proof.Tests

open Sys2Proof.Machine

/-! ## Small states -/

/-- The test configuration of `95_test_vectors.md` with `FRAME_LEN = 32` (V-F10), its window at an address that is not 0. -/
def cfg32 : Config := { frameLen := 32, scid := 0x2A, vcid := 1, base := 0x1000, pace := 1 }

def p7 : List Byte := [0x08, 0x64, 0xC0, 0x01, 0x00, 0x00, 0xAA]
def p8 : List Byte := [0x08, 0x65, 0xC0, 0x02, 0x00, 0x01, 0xCA, 0xFE]
def p10 : List Byte := [0x08, 0x64, 0xC0, 0x01, 0x00, 0x03, 0xDE, 0xAD, 0xBE, 0xEF]

/-- The header of V-P7: `d = 16`, more than follows it. -/
def h16 : List Byte := [0x08, 0x67, 0xC0, 0x03, 0x00, 0x10]

/-- V-F10's frame. -/
def f10 : List Byte :=
  [0x4A, 0x81, 0x00, 0x00, 0x00, 0x00, 0x00, 0x00] ++ p10 ++
    [0x07, 0xFF, 0xC0, 0x00, 0x00, 0x07, 0x00, 0x00, 0x00, 0x00, 0x00, 0x00, 0x00, 0x00]

/-- After power-on reset with stream `S`, in a given engine state. -/
def inState (p : PState) (S : List Byte) : State :=
  let s := State.resetWith cfg32 S
  { s with blk := { s.blk with pstate := p } }

/-- The same, free-running. -/
def running (p : PState) (S : List Byte) : State :=
  let s := inState p S
  { s with blk := { s.blk with run := true } }

/-- The same state with events pending. -/
def withEvents (es : List Event) (s : State) : State := setPending es s

/-- After `E_BUILD` has read `p10` in a free run. -/
def built : State := loadPacket p10 10 (running .build p10)

/-- After the packet phase of that. -/
def emitted : State := eEmitPkt built

/-- The next state of an outcome, if it is one. -/
def next? : Host.Outcome State Fault Refusal → Option State
  | .next s => some s
  | .fault _ => none
  | .refused _ => none

/-! ## The decoder (R91, R118, R119): bits 31..8 are `RSV`, bits 7..0 are `OP` -/

theorem test_word_nop : decode 0b00000000000000000000000000000000 = .ok .nop := by decide
theorem test_word_start : decode 0b00000000000000000000000000000001 = .ok .start := by decide
theorem test_word_step : decode 0b00000000000000000000000000000010 = .ok .step := by decide
theorem test_word_stop : decode 0b00000000000000000000000000000011 = .ok .stop := by decide
theorem test_word_sreset : decode 0b00000000000000000000000000000100 = .ok .sreset := by decide
theorem test_word_reserved : decode 0x00000005 = .error .reservedOpcode ∧ decode 0x00000105 = .error .reservedBits ∧
    decode 0x80000001 = .error .reservedBits := by decide
theorem test_rows_disjoint :
    opcodeTable.Pairwise (fun a b => a.value &&& (a.mask &&& b.mask) ≠ b.value &&& (a.mask &&& b.mask)) := by decide
theorem test_table_word : decodeTableWord 32 4 = some .sreset ∧ decodeTableWord 32 5 = none := by decide

/-! ## Well-formedness: an ill-formed configuration for each check (R271), and the edges that are legal (R5 to R12) -/

theorem test_illformed_frameLen : configProblem { cfg32 with frameLen := 21 } = some .frameLen ∧
    configProblem { cfg32 with frameLen := 65536 } = some .frameLen := by decide
theorem test_illformed_scid : configProblem { cfg32 with scid := 256 } = some .scid := by decide
theorem test_illformed_vcid : configProblem { cfg32 with vcid := 64 } = some .vcid := by decide
theorem test_illformed_tfvn : configProblem { cfg32 with tfvn := 4 } = some .tfvn := by decide
theorem test_illformed_idleApid : configProblem { cfg32 with idleApid := 2048 } = some .idleApid := by decide
theorem test_illformed_base : configProblem { cfg32 with base := 2 } = some .base := by decide
theorem test_illformed_pace : configProblem { cfg32 with pace := 0 } = some .pace := by decide
theorem test_legal_edges : Config.Legal { frameLen := 22, scid := 255, vcid := 63, tfvn := 3, idleApid := 2047, base := 4, pace := 1 } ∧
    Config.Legal { frameLen := 65535, scid := 0, vcid := 0, tfvn := 0, idleApid := 0, base := 0, pace := 1 } := by decide
theorem test_commands_wellformed : ∀ i : Instr, i.WellFormed = true := by intro i; cases i <;> rfl

/-! ## The pure functions: V-P, V-I, V-F -/

theorem test_VP1_VP6 : pktRead p10 0 = .ok (p10, 10) ∧ pktRead p7 0 = .ok (p7, 7) := by decide
theorem test_VP2 : pktRead (p10 ++ p8) 10 = .ok (p8, 18) := by decide
theorem test_VP3_VP4 : pktRead (p10 ++ p8) 18 = .error .eos ∧ pktRead (p10 ++ [1, 2, 3, 4, 5]) 10 = .error .eos := by decide
theorem test_VP5_VP7 : pktRead [0x08, 0x64, 0xC0, 0x01, 0x00, 0x00] 0 = .error (.corrupt [0x08, 0x64, 0xC0, 0x01, 0x00, 0x00]) ∧
    pktRead (h16 ++ [0x01, 0x02, 0x03]) 0 = .error (.corrupt h16) := by decide
theorem test_VP11 : pktRead [0xE8, 0x64, 0x00, 0x00, 0x00, 0x01, 0xAA, 0xBB] 0 =
    .ok ([0xE8, 0x64, 0x00, 0x00, 0x00, 0x01, 0xAA, 0xBB], 8) := by decide
theorem test_VI2 : makeIdle cfg32 8 = .ok [0x07, 0xFF, 0xC0, 0x00, 0x00, 0x01, 0x00, 0x00] := by decide
theorem test_VI5_VI7 : makeIdle cfg32 6 = .error .invalidLength ∧ makeIdle cfg32 65543 = .error .invalidLength := by decide
theorem test_VI8 : makeIdle { cfg32 with idleApid := 0x123 } 14 =
    .ok [0x01, 0x23, 0xC0, 0x00, 0x00, 0x07, 0x00, 0x00, 0x00, 0x00, 0x00, 0x00, 0x00, 0x00] := by decide
theorem test_VF10 : buildFrame cfg32 p10 0 = .ok f10 := by decide
theorem test_VF11_VF12 : buildFrame { cfg32 with frameLen := 22 } p7 0 =
      .ok ([0x4A, 0x81, 0x00, 0x00, 0x00, 0x00, 0x00, 0x00] ++ p7 ++ [0x07, 0xFF, 0xC0, 0x00, 0x00, 0x00, 0x00]) ∧
    buildFrame { cfg32 with frameLen := 22 } p8 0 = .error .idleShort := by decide
theorem test_VF9_VF13 : frameHeader cfg32 0x1000000 = [0x4A, 0x81, 0x00, 0x00, 0x00, 0x00, 0x00, 0x00] ∧
    frameHeader { cfg32 with tfvn := 0, scid := 0xFF, vcid := 0x3F } 0x010203 =
      [0x3F, 0xFF, 0x01, 0x02, 0x03, 0x00, 0x00, 0x00] := by decide
/-- R170's example. -/
theorem test_header_example : frameHeader cfg32 0x123456 = [0x4A, 0x81, 0x12, 0x34, 0x56, 0x00, 0x00, 0x00] := by decide
/-- R182: the boundaries at `FRAME_LEN = 1115`, by the lengths of the packets only. -/
theorem test_VF5_VF6 : buildFrame Config.example (zeros 1107) 0 = .error .idleShort ∧
    buildFrame Config.example (zeros 1108) 0 = .error .tooLarge := by
  simp [buildFrame, makeIdle, Config.example, fhLen]

/-! ## Commands: V-C -/

theorem test_VC2_start : (next? (exec .start (inState .idle []))).map (fun t => statusWord t.blk) = some 0x00000009 := by decide
theorem test_VC9_start : (next? (exec .start (running .build []))).map (fun t => statusWord t.blk) = some 0x00000029 := by decide
theorem test_VC3_step : (next? (exec .step (inState .idle []))).map (fun t => statusWord t.blk) = some 0x00000001 := by decide
theorem test_VC18_step : (next? (exec .step (inState .stopped []))).map (fun t => statusWord t.blk) = some 0x00000026 := by decide
theorem test_VC4_stop : (next? (exec .stop (inState .idle []))).map (fun t => statusWord t.blk) = some 0x00000006 := by decide
theorem test_VC11_stop : (next? (exec .stop (running .build []))).map (fun t => statusWord t.blk) = some 0x00000019 := by decide
theorem test_VC1_nop : (next? (exec .nop (running .build []))).map (fun t => statusWord t.blk) = some 0x00000009 := by decide
theorem test_VC19_sreset : (next? (exec .sreset emitted)).map (fun t => (statusWord t.blk, t.blk.tmPktCnt, t.env.pktOut, t.env.frmOut)) =
    some (0x00000000, 0, [p10], []) := by decide

/-! ## Engine steps: V-E -/

theorem test_VE1 : built.blk.pstate = .emit ∧ built.blk.ephase = .pkt ∧ built.blk.pktBuf = p10 ∧ built.blk.rdPos = 10 ∧
    built.blk.hdrId = 0x0864 ∧ built.blk.hdrSeq = 0xC001 ∧ built.blk.hdrLen = 3 ∧ built.blk.bres = .ok ∧ built.blk.frmBuf = f10 := by decide
theorem test_VE2 : (next? (engineTurn built)).map (fun t => (t.env.pktOut, t.blk.tmPktCnt, t.blk.ephase)) = some ([p10], 1, .frm) := by decide
theorem test_VE3 : (next? (engineTurn emitted)).map (fun t => (t.env.frmOut, t.blk.tmFrameCnt, statusWord t.blk)) =
    some ([f10], 1, 0x0000010B) := by decide
theorem test_VE5 : (next? (engineTurn { emitted with blk := { emitted.blk with stopReq := true } })).map (fun t => statusWord t.blk) =
    some 0x00000106 := by decide
theorem test_VE6 : (next? (engineTurn { emitted with blk := { emitted.blk with bres := .tooLarge, tmFrameCnt := 1 } })).map
    (fun t => (t.env.frmOut, t.blk.tmFrameCnt, statusWord t.blk)) = some ([], 1, 0x0000020B) := by decide
theorem test_VE9 : (next? (engineTurn { (running .build (p10 ++ h16 ++ [0x01, 0x02, 0x03])) with
      blk := { (running .build []).blk with rdPos := 10 } })).map
    (fun t => (t.blk.pstate, t.blk.run, t.blk.hdrId, t.blk.hdrSeq, t.blk.hdrLen, t.blk.rdPos)) =
    some (.error, false, 0x0867, 0xC003, 0x0010, 10) := by decide
theorem test_VE11 : (next? (engineTurn { built with blk := { built.blk with tmPktCnt := 0xFFFFFFFF } })).map (fun t => t.blk.tmPktCnt) =
    some 0 := by decide
theorem test_VE14 : (next? (engineTurn (inState .done p10))).map (fun t => t.blk) = some (inState .done p10).blk := by decide

/-! ## Register reads and bus accesses: V-R -/

theorem test_VR1 : memRead (State.resetWith { Config.example with base := 0x1000 } []) 0x1014 4 = .value 0x412A045B := by decide
theorem test_VR2 : memRead (inState .idle []) 0x1014 4 = .value 0x412A0020 := by decide
theorem test_VR6 : memRead built 0x101C 4 = .value 0x00000864 ∧ memRead built 0x1020 4 = .value 0x0003C001 := by decide
theorem test_VR8_VR9 : memRead (inState .idle []) 0x1008 2 = .busError ∧ memRead (inState .idle []) 0x1006 4 = .busError := by decide
theorem test_VR10 : (next? (step (withEvents [.access (.write 0x1000 1 0x01)] (inState .idle [])))).map
    (fun t => (statusWord t.blk, t.host.replies)) = some (0x00000000, [.busError]) := by decide
theorem test_VC7 : (next? (step (withEvents [.access (.write 0x1000 4 0x00000105)] (inState .idle [])))).map
    (fun t => statusWord t.blk) = some 0x00000020 := by decide
/-- A command placed as the first instruction after reset runs (R229). -/
theorem test_fetch_start : (next? (step (State.reset.withFetchWord 32 1))).map (fun t => statusWord t.blk) = some 0x00000009 := by decide
/-- Right after reset nothing happens until the host writes a command (R65). -/
theorem test_reset_stays : (next? (step State.reset)).map (fun t => t.blk.pstate) = some .idle := by decide
/-- A configuration outside its constraints is refused (R271). -/
theorem test_bad_config : (match step { (inState .idle []) with cfg := { cfg32 with frameLen := 21 } } with
    | .refused (.badConfig e) => some e
    | _ => none) = some ConfigError.frameLen := by decide

/-! ## Witnesses: a state and operands that meet the hypotheses of each statement, clause by clause -/

theorem test_witness_DecodeEncodeAgree : Instr.WellFormed .sreset = true ∧ decode 4 = .ok .sreset := by decide
theorem test_witness_HeaderFieldsRoundTrip : h16.length = 6 := by decide
theorem test_witness_PacketReadGivesWholePacket : pktRead p7 0 = .ok (p7, 7) := by decide
theorem test_witness_AnyPacketIsReadBack : 6 ≤ p7.length ∧ p7.length = 7 + (hdrFields (slice p7 0 6)).dataLen.toNat := by decide
theorem test_witness_IdlePacketDecodesBack : cfg32.Legal ∧ 7 ≤ maxPkt ∧ maxPkt ≤ maxPkt := by decide
theorem test_witness_FrameFitCondition : cfg32.Legal ∧ (zeros 17).length ≤ cfg32.frameLen - 15 ∧
    (cfg32.frameLen - 14 ≤ (zeros 18).length ∧ (zeros 24).length ≤ cfg32.frameLen - 8) ∧
    cfg32.frameLen - 7 ≤ (zeros 25).length := by decide
theorem test_witness_FrameLengthExact : cfg32.Legal ∧ buildFrame cfg32 p10 0 = .ok f10 := by decide
theorem test_witness_FrameDecodesBack : cfg32.Legal ∧ (zeros 17).length ≤ cfg32.frameLen - 15 := by decide
theorem test_witness_FrameHeaderConstantPart : cfg32.Legal ∧ buildFrame cfg32 p10 0 = .ok f10 := by decide
theorem test_witness_StartBeginsFreeRun : (inState .idle []).blk.pstate = .idle ∧ (inState .wait []).blk.pstate ≠ .idle := by decide
theorem test_witness_StepBeginsOneIteration : (inState .idle []).blk.pstate = .idle ∧ (inState .done []).blk.pstate ≠ .idle := by decide
theorem test_witness_StopInEachState : (inState .wait []).blk.pstate = .wait ∧ (inState .emit []).blk.pstate = .emit ∧
    (inState .error []).blk.pstate = .error := by decide
theorem test_witness_SresetBufferLengths : ∃ t, exec .sreset built = .next t := ⟨_, rfl⟩
theorem test_witness_CommandsLeaveDataUnchanged : ∃ t, exec .stop built = .next t := ⟨_, rfl⟩
theorem test_witness_StepRunsExactlyOneIteration : (inState .idle p10).blk.pstate = .idle ∧ (inState .idle p10).blk.stopReq = false ∧
    (inState .idle p10).env.StreamFits ∧
    pktRead (inState .idle p10).env.stream (inState .idle p10).blk.rdPos.toNat = .ok (p10, 10) ∧
    buildFrame cfg32 p10 0 = .ok f10 ∧ buildFrame cfg32 (zeros 18) 0 = .error .idleShort := by decide
theorem test_witness_EnabledStepPerState : (running .build p10).blk.pstate = .build ∧
    (built.blk.pstate = .emit ∧ built.blk.ephase = .pkt) ∧ (emitted.blk.pstate = .emit ∧ emitted.blk.ephase = .frm) ∧
    (running .wait p10).blk.pstate = .wait ∧ (inState .stopped []).blk.pstate = .stopped := by decide
theorem test_witness_BuildAtEndOfStream : (inState .build [1, 2, 3, 4, 5]).blk.pstate = .build ∧
    (inState .build [1, 2, 3, 4, 5]).env.StreamFits ∧
    (inState .build [1, 2, 3, 4, 5]).env.stream.length < (inState .build [1, 2, 3, 4, 5]).blk.rdPos.toNat + 6 := by decide
theorem test_witness_BuildOnTruncatedPacket : (inState .build h16).blk.pstate = .build ∧ (inState .build h16).env.StreamFits ∧
    h16 = slice (inState .build h16).env.stream 0 6 ∧ 0 + 6 ≤ h16.length ∧ h16.length < 0 + 7 + be (slice h16 4 6) := by decide
theorem test_witness_BuildReadsPacket : (running .build p10).blk.pstate = .build ∧ (running .build p10).env.StreamFits ∧
    pktRead (running .build p10).env.stream (running .build p10).blk.rdPos.toNat = .ok (p10, 10) ∧
    buildFrame cfg32 p10 0 = .ok f10 ∧ buildFrame cfg32 (zeros 24) 0 = .error .idleShort ∧
    buildFrame cfg32 (zeros 25) 0 = .error .tooLarge := by decide
theorem test_witness_EmitPacketPhase : built.blk.pstate = .emit ∧ built.blk.ephase = .pkt := by decide
theorem test_witness_EmitFramePhase : emitted.blk.pstate = .emit ∧ emitted.blk.ephase = .frm := by decide
theorem test_witness_WakeStartsNextIteration : (running .wait []).blk.pstate = .wait := by decide
theorem test_witness_StopAroundFramePhase : emitted.blk.pstate = .emit ∧ emitted.blk.ephase = .frm ∧ emitted.blk.run = true ∧
    emitted.blk.stopReq = false := by decide
theorem test_witness_LegalReadValues : built.cfg.Legal ∧ 0x3C < 64 ∧ 0x3C % 4 = 0 := by decide
theorem test_witness_StatusWordLayout : built.cfg.Legal := by decide
theorem test_witness_StepRunsCommandWord : built.cfg.Legal ∧
    (withEvents [.access (.write built.cfg.base 4 3)] built).host.pending = .access (.write built.cfg.base 4 3) :: [] ∧
    decode 3 = .ok .stop := by decide
theorem test_witness_StepRunsEngine : built.cfg.Legal ∧ (withEvents [.engine] built).host.pending = .engine :: [] ∧
    built.host.pending = [] := by decide
theorem test_witness_ResetInputEqualsSreset : built.cfg.Legal ∧
    (withEvents [.resetInput] built).host.pending = .resetInput :: [] := by decide
theorem test_witness_ReservedWordSetsErrCmdOnly : built.cfg.Legal ∧
    (withEvents [.access (.write built.cfg.base 4 5)] built).host.pending = .access (.write built.cfg.base 4 5) :: [] ∧
    5 ≤ (cmdOp 5).toNat ∧ cmdRsv 0x100 ≠ 0 := by decide
theorem test_witness_ReadsHaveNoSideEffect : built.cfg.Legal ∧
    (withEvents [.access (.read 0x1004 4)] built).host.pending = .access (.read 0x1004 4) :: [] := by decide
theorem test_witness_WritesOutsideCmdIgnored : built.cfg.Legal ∧ 0x3C < 64 ∧ 0x3C % 4 = 0 ∧ 0x3C ≠ 0 ∧
    (withEvents [.access (.write (built.cfg.base + 0x3C) 4 0)] built).host.pending =
      .access (.write (built.cfg.base + 0x3C) 4 0) :: [] := by decide
theorem test_witness_BusErrorChangesNothing : built.cfg.Legal ∧ 0x3F < 64 ∧ ((4 : Nat) ≠ 4 ∨ 0x3F % 4 ≠ 0) ∧
    ((8 : Nat) ≠ 4 ∨ 0 % 4 ≠ 0) ∧
    (withEvents [.access (.read (built.cfg.base + 0x3F) 4)] built).host.pending =
      .access (.read (built.cfg.base + 0x3F) 4) :: [] := by decide
theorem test_witness_OutsideWindowNoResponse : built.cfg.Legal ∧ 0xFFF < built.cfg.base ∧ built.cfg.base + 64 ≤ 0x1040 ∧
    (withEvents [.access (.write 0x1040 4 1)] built).host.pending = .access (.write 0x1040 4 1) :: [] := by decide
theorem test_witness_IllegalConfigurationRefused : ¬ Config.Legal { cfg32 with base := 2 } ∧ cfg32.Legal := by decide
theorem test_witness_EveryTransitionCompletes : built.cfg.Legal ∧ built.env.StreamFits := by decide
theorem test_witness_QuiescentBlockStays : (inState .idle []).cfg.Legal ∧ (inState .idle []).host.pending = [] ∧
    (inState .idle []).blk.Quiescent := by decide
theorem test_witness_EndOfRunIsFinal : (inState .done p10).cfg.Legal ∧ (inState .done p10).host.pending = [] ∧
    (inState .done p10).blk.Quiescent := by decide

/-- The state after `E_BUILD` has read a packet meets the invariant. -/
theorem test_inv_built : MachineInv built := by
  refine ⟨by decide, ⟨by decide, ?_, ?_⟩, ?_⟩
  · intro m hm; exact absurd hm List.not_mem_nil
  · intro m hm; exact absurd hm List.not_mem_nil
  · have hb : currentBuild built = .ok built.blk.frmBuf := by decide
    refine ⟨by decide, by decide, by decide, fun _ => by rw [hb]; decide, fun _ f hf => ?_, fun _ => ⟨0, by decide⟩,
      by decide, by decide, by decide⟩
    rw [hb] at hf
    exact Except.ok.inj hf

/-- The state after the packet phase has the history since power-on. -/
theorem test_history_emitted : History 0 0 emitted :=
  ⟨by decide, by decide, by decide, by decide, by decide, by decide, by decide⟩

/-- The state after the frame phase has it too. -/
theorem test_history_framed : History 0 0 (eEmitFrm emitted) :=
  ⟨by decide, by decide, by decide, by decide, by decide, by decide, by decide⟩

theorem test_witness_InvariantAtReset : cfg32.Legal ∧ p10.length ≤ 2 ^ 32 - 1 := by decide
theorem test_witness_InvariantKept : MachineInv built ∧ ∃ t, step built = .next t :=
  ⟨test_inv_built, emitted, by rw [show step built = engineTurn built from rfl]; rfl⟩
theorem test_witness_HistoryBeginsAtReset : nextIsReset (withEvents [.resetInput] built) = true ∧
    nextIsReset (withEvents [.access (.write 0x1000 4 4)] built) = true ∧
    (next? (step (withEvents [.access (.write 0x1000 4 4)] built))).isSome = true := by decide
theorem test_witness_HistoryKept : MachineInv built ∧ History 0 0 built ∧ nextIsReset built = false ∧ ∃ t, step built = .next t :=
  ⟨test_inv_built, ⟨by decide, by decide, by decide, by decide, by decide, by decide, by decide⟩, by decide,
    test_witness_InvariantKept.2⟩
theorem test_witness_CounterProperty : emitted.cfg.Legal ∧ History 0 0 emitted ∧ (packetsSince 0 emitted).length < 2 ^ 32 ∧
    emitted.blk.FramePending ∧ ¬ (eEmitFrm emitted).blk.FramePending :=
  ⟨by decide, test_history_emitted, by decide, by decide, by decide⟩
theorem test_witness_FrameSequenceNumbers : (eEmitFrm emitted).cfg.Legal ∧ History 0 0 (eEmitFrm emitted) ∧
    (framesSince 0 (eEmitFrm emitted))[0]? = some f10 :=
  ⟨by decide, test_history_framed, by decide⟩
theorem test_witness_TerminalLeftOnlyByReset : (inState .error []).blk.pstate.Terminal ∧
    nextIsReset (withEvents [.access (.write 0x1000 4 1)] (inState .error [])) = false ∧
    (next? (step (withEvents [.access (.write 0x1000 4 1)] (inState .error [])))).isSome = true := by decide
theorem test_witness_ErrCmdSticky : (illegalCmd built).blk.errCmd = true ∧ nextIsReset (illegalCmd built) = false ∧
    (next? (step (illegalCmd built))).isSome = true := by decide
theorem test_witness_HostCannotWriteData : nextIsAccess (withEvents [.access (.write 0x1000 4 3)] built) = true ∧
    nextIsReset (withEvents [.access (.write 0x1000 4 3)] built) = false ∧
    (next? (step (withEvents [.access (.write 0x1000 4 3)] built))).isSome = true := by decide
theorem test_witness_PortsAppendOnly : (next? (step emitted)).isSome = true := by decide
theorem test_witness_CountersMoveWithEmissions : nextIsReset emitted = false ∧ (next? (step emitted)).isSome = true := by decide
theorem test_witness_ReadPositionMovesPastPackets : nextIsReset (running .build p10) = false ∧
    (next? (step (running .build p10))).map (fun t => t.blk.rdPos) = some 10 ∧ (running .build p10).blk.rdPos ≠ 10 := by decide
theorem test_witness_FreeRunReachesTerminalState : MachineInv (running .build p10) ∧ (running .build p10).host.pending = [] ∧
    (running .build p10).blk.pstate = .build ∧ (running .build p10).blk.run = true := by
  refine ⟨⟨by decide, envWf_resetWith cfg32 (by decide), ?_⟩, by decide⟩
  exact ⟨by decide, by decide, by decide, by decide, fun h => absurd h (by decide), fun h => absurd h (by decide),
    by decide, by decide, by decide⟩

end Sys2Proof.Tests
end

section
/-! PROOF. The `STATUS` word (`30_encoding.md` R112): the ranges of its codes and so its value as a number, the fields read
off that number by division, and the register access at its offset. -/

namespace Sys2Proof.Machine

/-! ## Codes and their ranges -/

theorem pstateCode_lt (p : PState) : pstateCode p < 7 := by
  cases p <;> decide

theorem buildCode_lt (r : BuildResult) : buildCode r < 4 := by
  cases r <;> decide

theorem flagBit_lt (f : Bool) : flagBit f < 2 := by
  cases f <;> decide

/-- A one-bit field that holds a flag's number is set exactly when the flag is. -/
theorem eq_one_iff_of_toNat_eq_flagBit {x : BitVec 1} {f : Bool} (h : x.toNat = flagBit f) : x = 1 ↔ f = true := by
  rw [← BitVec.toNat_inj, h]
  cases f <;> decide

/-! ## The word and its fields -/

/-- The weighted sum fits the word: no field carries into the next one, and nothing is cut off at bit 32. -/
theorem statusWord_toNat (b : Block) : (statusWord b).toNat =
    pstateCode b.pstate + flagBit b.run * 2 ^ 3 + flagBit b.stopReq * 2 ^ 4 + flagBit b.errCmd * 2 ^ 5 +
      buildCode b.lastBuild * 2 ^ 8 := by
  have := pstateCode_lt b.pstate
  have := flagBit_lt b.run
  have := flagBit_lt b.stopReq
  have := flagBit_lt b.errCmd
  have := buildCode_lt b.lastBuild
  rw [statusWord, BitVec.toNat_ofNat]
  omega

/-- A field of `STATUS` as a quotient and remainder of the weighted sum. -/
theorem statusWord_extract_toNat (b : Block) (start len : Nat) : ((statusWord b).extractLsb' start len).toNat =
    (pstateCode b.pstate + flagBit b.run * 2 ^ 3 + flagBit b.stopReq * 2 ^ 4 + flagBit b.errCmd * 2 ^ 5 +
      buildCode b.lastBuild * 2 ^ 8) / 2 ^ start % 2 ^ len := by
  rw [BitVec.extractLsb'_toNat, statusWord_toNat, Nat.shiftRight_eq_div_pow]

/-- Every bit field of `STATUS`, the reserved ones included, by its number. -/
theorem statusWord_fields (b : Block) :
    ((statusWord b).extractLsb' 0 3).toNat = pstateCode b.pstate ∧
    ((statusWord b).extractLsb' 3 1).toNat = flagBit b.run ∧
    ((statusWord b).extractLsb' 4 1).toNat = flagBit b.stopReq ∧
    ((statusWord b).extractLsb' 5 1).toNat = flagBit b.errCmd ∧
    ((statusWord b).extractLsb' 6 2).toNat = 0 ∧
    ((statusWord b).extractLsb' 8 2).toNat = buildCode b.lastBuild ∧
    ((statusWord b).extractLsb' 10 22).toNat = 0 := by
  have := pstateCode_lt b.pstate
  have := flagBit_lt b.run
  have := flagBit_lt b.stopReq
  have := flagBit_lt b.errCmd
  have := buildCode_lt b.lastBuild
  simp only [statusWord_extract_toNat]
  omega

/-- After reset every summand is 0 (R41). -/
theorem statusWord_reset (c : Config) : statusWord (Block.reset c) = 0 := by
  simp [statusWord, Block.reset, pstateCode, flagBit, buildCode]

/-! ## The register slot -/

/-- Every aligned word of the window is a legal access to its slot (R221). -/
theorem accessTarget_slot (c : Config) {off : Nat} (hoff : off < windowSize) (halign : off % 4 = 0) :
    accessTarget c (c.base + off) 4 = .slot off := by
  simp [accessTarget, hoff, halign]

theorem memRead_of_slot {s : State} {addr width off : Nat} (h : accessTarget s.cfg addr width = .slot off) :
    memRead s addr width = .value (readSlot s off) := by
  simp only [memRead, h]

/-- A write to any slot but `CMD` is accepted and ignored (R223, R224, R231). -/
theorem hostWrite_of_slot_ne_cmd {s : State} {addr width off : Nat} (h : accessTarget s.cfg addr width = .slot off)
    (hoff : off ≠ 0) (v : Word) : hostWrite addr width v s = .other (.next (giveReply .accepted s)) := by
  simp only [hostWrite, h, if_neg hoff]

/-- Settles O32: every field is a quotient and remainder of the weighted sum, whose terms do not overlap. -/
theorem statusWordLayout : Obligations.StatusWordLayout := by
  refine ⟨by decide, statusWord_reset, fun s _ => ?_, fun b => ?_⟩
  · have hslot : accessTarget s.cfg (s.cfg.base + 0x04) 4 = .slot 0x04 := accessTarget_slot s.cfg (by decide) (by decide)
    exact ⟨memRead_of_slot hslot,
      fun v => ⟨giveReply .accepted s, hostWrite_of_slot_ne_cmd hslot (by decide) v, rfl, rfl, rfl⟩⟩
  · obtain ⟨hstate, hrun, hstop, herr, hrsv, hbuild, hrsv'⟩ := statusWord_fields b
    exact ⟨statusWord_toNat b, hstate, pstateCode_lt b.pstate, eq_one_iff_of_toNat_eq_flagBit hrun,
      eq_one_iff_of_toNat_eq_flagBit hstop, eq_one_iff_of_toNat_eq_flagBit herr, BitVec.eq_of_toNat_eq hrsv, hbuild,
      BitVec.eq_of_toNat_eq hrsv'⟩

end Sys2Proof.Machine
end

section
/-! PROOF. A successful packet read (`40_packet_parser.md` R136): the data length field as a number, and the header at the
front of the packet that was read. -/

namespace Sys2Proof.Machine

/-- The 16-bit field holds the length bytes' number exactly (R96): nothing is cut off. -/
@[simp] theorem hdrFields_dataLen_toNat (h : List Byte) : (hdrFields h).dataLen.toNat = be (slice h 4 6) := by
  have := dataLen_lt h
  simp only [hdrFields, BitVec.toNat_ofNat]
  omega

/-- A read packet begins with the stream's header bytes at the read position (R136). -/
theorem pktRead_header {S p : List Byte} {pos pos' : Nat} (h : pktRead S pos = .ok (p, pos')) :
    slice p 0 6 = slice S pos (pos + 6) := by
  obtain ⟨hnext, _, rfl⟩ := pktRead_eq_ok.mp h
  exact slice_slice (by omega)

/-- The data length field of a read packet is the one its next boundary was computed from (R132). -/
theorem pktRead_dataLen {S p : List Byte} {pos pos' : Nat} (h : pktRead S pos = .ok (p, pos')) :
    (hdrFields (slice p 0 6)).dataLen.toNat = be (slice S (pos + 4) (pos + 6)) := by
  rw [hdrFields_dataLen_toNat, pktRead_header h, slice_slice (by omega)]

/-- Settles O7: the packet is the stream's slice up to the boundary that its own data length field gives. -/
theorem packetReadGivesWholePacket : Obligations.PacketReadGivesWholePacket := by
  intro S pos p pos' h
  obtain ⟨hnext, hfits, hslice⟩ := pktRead_eq_ok.mp h
  obtain ⟨hmin, hmax, hend⟩ := pktRead_length h
  have hlen : p.length = 7 + (hdrFields (slice p 0 6)).dataLen.toNat := by
    rw [pktRead_dataLen h]
    omega
  exact ⟨hlen, hmin, hmax, pktRead_header h, hslice, hend, hfits⟩

end Sys2Proof.Machine
end

section
/-! PROOF. An idle packet (`41_idle_generator.md` R154): its header and its zero data as slices, its fields decoded, and its
read-back by the packet parser. -/

namespace Sys2Proof.Machine

/-- The fields of a header written as three 16-bit words (R93 to R98). -/
theorem hdrFields_put16_words {w0 w1 w2 : Nat} (h0 : w0 < 65536) (h1 : w1 < 65536) (h2 : w2 < 65536) :
    hdrFields (put16 w0 ++ put16 w1 ++ put16 w2) =
      { version := BitVec.ofNat 3 (bits w0 15 13)
        type := BitVec.ofNat 1 (bits w0 12 12)
        shf := BitVec.ofNat 1 (bits w0 11 11)
        apid := BitVec.ofNat 11 (bits w0 10 0)
        seqFlags := BitVec.ofNat 2 (bits w1 15 14)
        seqCount := BitVec.ofNat 14 (bits w1 13 0)
        dataLen := BitVec.ofNat 16 w2 } := by
  have hw0 : be (slice (put16 w0 ++ put16 w1 ++ put16 w2) 0 2) = w0 := (be_put16 w0).trans (Nat.mod_eq_of_lt h0)
  have hw1 : be (slice (put16 w0 ++ put16 w1 ++ put16 w2) 2 4) = w1 := (be_put16 w1).trans (Nat.mod_eq_of_lt h1)
  have hw2 : be (slice (put16 w0 ++ put16 w1 ++ put16 w2) 4 6) = w2 := (be_put16 w2).trans (Nat.mod_eq_of_lt h2)
  simp only [hdrFields, hw0, hw1, hw2]

/-- An idle packet begins with its three header words (R107, R109, R111). -/
theorem makeIdle_header {c : Config} {L : Nat} {q : List Byte} (h : makeIdle c L = .ok q) :
    slice q 0 6 = put16 (idleWord0 c) ++ put16 idleWord1 ++ put16 (L - 7) := by
  obtain ⟨_, rfl⟩ := makeIdle_eq_ok.mp h
  rw [slice_append_left (by simp)]
  exact slice_all rfl

/-- Behind its header an idle packet is all zero (R111). -/
theorem makeIdle_data {c : Config} {L : Nat} {q : List Byte} (h : makeIdle c L = .ok q) :
    slice q 6 L = zeros (L - 6) := by
  obtain ⟨_, rfl⟩ := makeIdle_eq_ok.mp h
  rw [slice_append_right (by simp)]
  exact slice_all (zeros_length _).symm

/-- A legal `IDLE_APID` fits its 11 bits (R9), so it leaves the version, type and secondary-header flag at 0. -/
theorem hdrFields_makeIdle {c : Config} {L : Nat} {q : List Byte} (hapid : c.idleApid ≤ 2047) (h : makeIdle c L = .ok q) :
    hdrFields (slice q 0 6) =
      ⟨0, 0, 0, BitVec.ofNat 11 c.idleApid, BitVec.ofNat 2 seqStandalone, 0, BitVec.ofNat 16 (L - 7)⟩ := by
  have hw0 : idleWord0 c = c.idleApid := by simp [idleWord0]
  have hL := (makeIdle_eq_ok.mp h).1
  have hversion : bits c.idleApid 15 13 = 0 := by simp only [bits]; omega
  have htype : bits c.idleApid 12 12 = 0 := by simp only [bits]; omega
  have hshf : bits c.idleApid 11 11 = 0 := by simp only [bits]; omega
  have hfield : bits c.idleApid 10 0 = c.idleApid := by simp only [bits]; omega
  rw [makeIdle_header h, hw0, hdrFields_put16_words (by omega) (by decide) (by omega), hversion, htype, hshf, hfield]
  rfl

/-- A byte sequence that is as long as its data length field says is one packet (R97, R132). -/
theorem pktRead_self {p : List Byte} (h : p.length = 7 + (hdrFields (slice p 0 6)).dataLen.toNat) :
    pktRead p 0 = .ok (p, p.length) := by
  rw [hdrFields_dataLen_toNat, slice_slice (by omega)] at h
  exact pktRead_eq_ok.mpr ⟨by omega, le_rfl, (slice_all rfl).symm⟩

/-- Settles O10: the header words give every field, and the data length field `L - 7` is the one the parser needs. -/
theorem idlePacketDecodesBack : Obligations.IdlePacketDecodesBack := by
  intro c L hlegal hmin hmax
  obtain ⟨_, _, _, _, hapid, _⟩ := hlegal
  obtain ⟨q, hq⟩ : ∃ q, makeIdle c L = .ok q := ⟨_, makeIdle_eq_ok.mpr ⟨⟨hmin, hmax⟩, rfl⟩⟩
  have hlen : q.length = L := makeIdle_length hq
  have hfields := hdrFields_makeIdle hapid hq
  have hapidField : (hdrFields (slice q 0 6)).apid.toNat = c.idleApid := by
    rw [hfields]
    exact Nat.mod_eq_of_lt (by omega)
  have hdataLen : (hdrFields (slice q 0 6)).dataLen.toNat = L - 7 := by
    rw [hfields]
    rw [maxPkt] at hmax
    exact Nat.mod_eq_of_lt (by omega)
  have hzero : ∀ x ∈ slice q 6 L, x = 0 := by
    rw [makeIdle_data hq]
    exact fun x hx => List.eq_of_mem_replicate hx
  have hread : pktRead q 0 = .ok (q, q.length) := pktRead_self (by omega)
  exact ⟨q, hq, hlen, hfields, hapidField, hdataLen, hzero, hlen ▸ hread⟩

end Sys2Proof.Machine
end

section
/-! PROOF. A transfer frame (`42_frame_builder.md` R170 to R181): the fields of its fixed header, the three parts of a built
frame as slices, and which packets fit. -/

namespace Sys2Proof.Machine

/-! ## The fixed header -/

/-- The ID word comes first (R100, R170). -/
theorem frameHeader_idWord (c : Config) (seq : Nat) : slice (frameHeader c seq) 0 2 = put16 (frameIdWord c) := rfl

theorem frameHeader_seq (c : Config) (seq : Nat) : slice (frameHeader c seq) 2 5 = put24 (bits seq 23 0) := rfl

/-- The signaling field and the sub-frame header are always zero (R173). -/
theorem frameHeader_zeros (c : Config) (seq : Nat) : slice (frameHeader c seq) 5 8 = [0x00, 0x00, 0x00] := rfl

/-- Legal identifiers fit the ID word (R6 to R8): nothing is cut off at bit 16. -/
theorem frameIdWord_lt {c : Config} (h : c.Legal) : frameIdWord c < 65536 := by
  obtain ⟨_, hscid, hvcid, htfvn, _⟩ := h
  rw [frameIdWord]
  omega

/-- Legal identifiers do not carry into each other's field (R100). -/
theorem frameIdWord_fields {c : Config} (h : c.Legal) :
    bits (frameIdWord c) 13 6 = c.scid ∧ bits (frameIdWord c) 5 0 = c.vcid ∧ bits (frameIdWord c) 15 14 = c.tfvn := by
  obtain ⟨_, hscid, hvcid, htfvn, _⟩ := h
  simp only [bits, frameIdWord]
  omega

theorem be_frameHeader_idWord {c : Config} (h : c.Legal) (seq : Nat) :
    be (slice (frameHeader c seq) 0 2) = frameIdWord c := by
  rw [frameHeader_idWord, be_put16, Nat.mod_eq_of_lt (frameIdWord_lt h)]

/-- The header holds the sequence number modulo `2 ^ 24` (R172). -/
theorem be_frameHeader_seq (c : Config) (seq : Nat) : be (slice (frameHeader c seq) 2 5) = seq % 2 ^ 24 := by
  rw [frameHeader_seq, be_put24]
  simp [bits]

/-! ## The parts of a built frame -/

/-- The first 8 bytes of a built frame are its header's (R105). -/
theorem buildFrame_header {c : Config} {p f : List Byte} {seq i j : Nat} (h : buildFrame c p seq = .ok f) (hj : j ≤ fhLen) :
    slice f i j = slice (frameHeader c seq) i j := by
  obtain ⟨_, q, _, rfl⟩ := buildFrame_eq_ok.mp h
  rw [List.append_assoc, slice_append_left (by simpa using hj)]

/-- The packet stands behind the header (R105). -/
theorem buildFrame_packet {c : Config} {p f : List Byte} {seq : Nat} (h : buildFrame c p seq = .ok f) :
    slice f 8 (8 + p.length) = p := by
  obtain ⟨_, q, _, rfl⟩ := buildFrame_eq_ok.mp h
  rw [slice_append_left (by simp), slice_append_right (by simp)]
  exact slice_all (by simp)

/-- The idle packet fills the frame behind the packet (R105). -/
theorem buildFrame_idle {c : Config} {p f : List Byte} {seq : Nat} (h : buildFrame c p seq = .ok f) :
    makeIdle c (c.frameLen - 8 - p.length) = .ok (slice f (8 + p.length) c.frameLen) := by
  obtain ⟨_, q, hq, rfl⟩ := buildFrame_eq_ok.mp h
  have hlen : q.length = c.frameLen - 8 - p.length := makeIdle_length hq
  have hidle : slice (frameHeader c seq ++ p ++ q) (8 + p.length) c.frameLen = q := by
    rw [slice_append_right (by simp)]
    simp only [List.length_append, frameHeader_length, Nat.sub_self]
    exact slice_all (by omega)
  rw [hidle, hq]

/-- A packet that exceeds the frame with its header is refused (R176). -/
theorem buildFrame_tooLarge {c : Config} {p : List Byte} (seq : Nat) (h : c.frameLen < p.length + 8) :
    buildFrame c p seq = .error .tooLarge :=
  if_pos h

/-- Fewer than 7 bytes left are too few for an idle packet (R177). -/
theorem buildFrame_idleShort {c : Config} {p : List Byte} (seq : Nat) (h : p.length + 8 ≤ c.frameLen)
    (hshort : c.frameLen < p.length + 15) : buildFrame c p seq = .error .idleShort := by
  have hidle : makeIdle c (c.frameLen - (fhLen + p.length)) = .error .invalidLength :=
    makeIdle_eq_error.mpr (.inl (by rw [fhLen]; omega))
  rw [buildFrame, if_neg (by rw [fhLen]; omega), hidle]

/-! ## The obligations -/

/-- Settles O13: the frame is header, packet and idle packet in a row, and each part's fields decode back. -/
theorem frameDecodesBack : Obligations.FrameDecodesBack := by
  intro c p seq hlegal hfit
  have ⟨⟨hmin, hmax⟩, _, _, _, hapid, _⟩ := hlegal
  obtain ⟨f, hf⟩ := (buildFrame_ok_iff (seq := seq) hmax).mpr (show p.length + 15 ≤ c.frameLen by omega)
  have hid : be (slice f 0 2) = frameIdWord c := by
    rw [buildFrame_header hf (by decide), be_frameHeader_idWord hlegal]
  have hseq : be (slice f 2 5) = seq % 2 ^ 24 := by
    rw [buildFrame_header hf (by decide), be_frameHeader_seq]
  have hzeros : slice f 5 8 = [0x00, 0x00, 0x00] := by
    rw [buildFrame_header hf le_rfl, frameHeader_zeros]
  obtain ⟨hscid, hvcid, htfvn⟩ := frameIdWord_fields hlegal
  rw [← hid] at hscid hvcid htfvn
  have hidle := buildFrame_idle hf
  exact ⟨f, _, hf, hscid, hvcid, htfvn, hseq, hzeros, buildFrame_packet hf, hidle, rfl, hdrFields_makeIdle hapid hidle⟩

/-- Settles O11: a frame is built when 7 bytes are left for the idle packet; the two errors take the other lengths. -/
theorem frameFitCondition : Obligations.FrameFitCondition := by
  intro c p seq hlegal
  obtain ⟨⟨hmin, hmax⟩, _⟩ := hlegal
  refine ⟨fun hfit => ?_, fun hshort => buildFrame_idleShort seq (by omega) (by omega),
    fun hlarge => buildFrame_tooLarge seq (by omega)⟩
  obtain ⟨f, hf⟩ := (buildFrame_ok_iff (seq := seq) hmax).mpr (show p.length + 15 ≤ c.frameLen by omega)
  obtain ⟨_, q, hq, hparts⟩ := buildFrame_eq_ok.mp hf
  have hlen : q.length = c.frameLen - 8 - p.length := makeIdle_length hq
  exact ⟨f, q, hf, hq, hparts, hlen, by omega⟩

/-- Settles O14: the ID word is the configuration's alone, and bytes 5 to 7 of every header are zero. -/
theorem frameHeaderConstantPart : Obligations.FrameHeaderConstantPart := by
  intro c p p' seq seq' f f' _ hf hf'
  refine ⟨?_, ?_, ?_⟩
  · rw [buildFrame_header hf (by decide), buildFrame_header hf' (by decide), frameHeader_idWord, frameHeader_idWord]
  · rw [buildFrame_header hf le_rfl, frameHeader_zeros]
  · rw [buildFrame_header hf' le_rfl, frameHeader_zeros]

end Sys2Proof.Machine
end

section
/-! PROOF. The engine's turn in `BUILD` and in each phase of `EMIT` (`43_producer.md` R193 to R197): the step that is
enabled there, and the whole state it answers. -/

namespace Sys2Proof.Machine

/-! ## The enabled step -/

/-- In `BUILD` the engine's turn is `E_BUILD` (R190). -/
theorem engineTurn_of_build {s : State} (h : s.blk.pstate = .build) : engineTurn s = eBuild s := by
  simp only [engineTurn, enabledStep, h, runEngineStep]

/-- In `EMIT`/`PKT` the engine's turn is `E_EMIT_PKT` (R190). -/
theorem engineTurn_of_packetPending {s : State} (h : s.blk.PacketPending) : engineTurn s = .next (eEmitPkt s) := by
  obtain ⟨hstate, hphase⟩ := h
  simp only [engineTurn, enabledStep, hstate, hphase, runEngineStep]

/-- In `EMIT`/`FRM` the engine's turn is `E_EMIT_FRM` (R190). -/
theorem engineTurn_of_framePending {s : State} (h : s.blk.FramePending) : engineTurn s = .next (eEmitFrm s) := by
  obtain ⟨hstate, hphase⟩ := h
  simp only [engineTurn, enabledStep, hstate, hphase, runEngineStep]

/-! ## The obligations -/

/-- Settles O24: the parser reports `EOS`, and entering `DONE` writes the two flags and no other item. -/
theorem buildAtEndOfStream : Obligations.BuildAtEndOfStream := by
  intro s hstate hstream hshort
  have heos : pktRead s.env.stream s.blk.rdPos.toNat = .error .eos := pktRead_eq_eos.mpr hshort
  rw [engineTurn_of_build hstate, eBuild_eos hstream heos]
  rfl

/-- Settles O25: the parser reports `CORRUPT` with the header, which is captured before `ERROR` is entered. -/
theorem buildOnTruncatedPacket : Obligations.BuildOnTruncatedPacket := by
  intro s h hstate hstream hheader hfits hcut
  have hcorrupt : pktRead s.env.stream s.blk.rdPos.toNat = .error (.corrupt h) :=
    pktRead_eq_corrupt.mpr ⟨hfits, hheader, hcut⟩
  rw [engineTurn_of_build hstate, eBuild_corrupt hstream hcorrupt]
  rfl

/-- Settles O27: the enabled step is `E_EMIT_PKT`, whose updates are the ones stated. -/
theorem emitPacketPhase : Obligations.EmitPacketPhase :=
  fun _ hstate hphase => engineTurn_of_packetPending ⟨hstate, hphase⟩

/-- Settles O28: the enabled step is `E_EMIT_FRM`, which with the end of the iteration is one update of the state. -/
theorem emitFramePhase : Obligations.EmitFramePhase := by
  intro s hstate hphase
  rw [engineTurn_of_framePending ⟨hstate, hphase⟩, eEmitFrm_eq]

end Sys2Proof.Machine
end

section
/-! PROOF. What the history since a reset says of the counters and of the frames' numbers (`43_producer.md` R201, R202):
how many frames a list of packets gives, and the number each of them carries. -/

namespace Sys2Proof.Machine

/-! ## The frames of a list of packets -/

theorem framesFrom_cons_ok {c : Config} {k : Nat} {p f : List Byte} (ps : List (List Byte))
    (h : buildFrame c p (k % 2 ^ 24) = .ok f) : framesFrom c k (p :: ps) = f :: framesFrom c (k + 1) ps := by
  simp only [framesFrom, h]

/-- A packet that cannot be framed takes no number (R196). -/
theorem framesFrom_cons_error {c : Config} {k : Nat} {p : List Byte} {e : BuildErr} (ps : List (List Byte))
    (h : buildFrame c p (k % 2 ^ 24) = .error e) : framesFrom c k (p :: ps) = framesFrom c k ps := by
  simp only [framesFrom, h]

/-- In a legal configuration the packets that can be framed are those of at most `FRAME_LEN - 15` bytes (R178). -/
theorem buildFrame_ok_iff_of_legal {c : Config} {p : List Byte} {seq : Nat} (hc : c.Legal) :
    (∃ f, buildFrame c p seq = .ok f) ↔ p.length ≤ c.frameLen - 15 := by
  obtain ⟨⟨hmin, hmax⟩, _⟩ := hc
  rw [buildFrame_ok_iff hmax]
  omega

/-- There is one frame for each packet that can be framed, whatever number the first one takes (R202). -/
theorem framesFrom_length {c : Config} (hc : c.Legal) (k : Nat) (ps : List (List Byte)) :
    (framesFrom c k ps).length = (ps.filter (fun p => decide (p.length ≤ c.frameLen - 15))).length := by
  induction ps generalizing k with
  | nil => rfl
  | cons p ps ih =>
    have hfit := buildFrame_ok_iff_of_legal (p := p) (seq := k % 2 ^ 24) hc
    cases hb : buildFrame c p (k % 2 ^ 24) with
    | ok f =>
      have hshort : p.length ≤ c.frameLen - 15 := hfit.mp ⟨f, hb⟩
      simp [framesFrom_cons_ok ps hb, ih, hshort]
    | error e =>
      have hlong : ¬ p.length ≤ c.frameLen - 15 := by
        rw [← hfit, hb]
        simp
      simp [framesFrom_cons_error ps hb, ih, hlong]

/-- The frame at place `i` was built with the number `i` behind the first one's (R201). -/
theorem buildFrame_of_framesFrom_getElem? {c : Config} {k i : Nat} {ps : List (List Byte)} {f : List Byte}
    (h : (framesFrom c k ps)[i]? = some f) : ∃ p ∈ ps, buildFrame c p ((k + i) % 2 ^ 24) = .ok f := by
  induction ps generalizing k i with
  | nil => cases h
  | cons p ps ih =>
    cases hb : buildFrame c p (k % 2 ^ 24) with
    | ok g =>
      rw [framesFrom_cons_ok ps hb] at h
      cases i with
      | zero =>
        cases h
        exact ⟨p, List.mem_cons_self, hb⟩
      | succ i =>
        obtain ⟨q, hq, hf⟩ := ih h
        exact ⟨q, List.mem_cons_of_mem p hq, by rwa [← Nat.add_right_comm] at hf⟩
    | error e =>
      rw [framesFrom_cons_error ps hb] at h
      obtain ⟨q, hq, hf⟩ := ih h
      exact ⟨q, List.mem_cons_of_mem p hq, hf⟩

/-- Bytes 2 to 4 of a built frame are its sequence number (R172, R181). -/
theorem be_buildFrame_seq {c : Config} {p f : List Byte} {seq : Nat} (h : buildFrame c p seq = .ok f) :
    be (slice f 2 5) = seq % 2 ^ 24 := by
  rw [buildFrame_header h (by decide), be_frameHeader_seq]

/-! ## The packets whose frame phase is over -/

theorem framedPackets_of_framePending {s : State} (m : Nat) (h : s.blk.FramePending) :
    framedPackets m s = (packetsSince m s).dropLast :=
  if_pos h

theorem framedPackets_of_not_framePending {s : State} (m : Nat) (h : ¬ s.blk.FramePending) :
    framedPackets m s = packetsSince m s :=
  if_neg h

theorem framedPackets_length_le (m : Nat) (s : State) : (framedPackets m s).length ≤ (packetsSince m s).length := by
  by_cases h : s.blk.FramePending
  · rw [framedPackets_of_framePending m h, List.length_dropLast]
    omega
  · rw [framedPackets_of_not_framePending m h]

/-- The frames since the reset are as many as the packets that have passed the frame phase and can be framed (R202). -/
theorem History.framesSince_length {m n : Nat} {s : State} (h : History m n s) (hc : s.cfg.Legal) :
    (framesSince n s).length =
      ((framedPackets m s).filter (fun p => decide (p.length ≤ s.cfg.frameLen - 15))).length := by
  rw [h.frames, framesFrom_length hc]

/-- There are no more frames than packets (R202). -/
theorem History.framesSince_length_le {m n : Nat} {s : State} (h : History m n s) (hc : s.cfg.Legal) :
    (framesSince n s).length ≤ (packetsSince m s).length := by
  rw [h.framesSince_length hc]
  exact (List.length_filter_le _ _).trans (framedPackets_length_le m s)

/-! ## The obligations -/

/-- Settles O50: fewer packets than `2 ^ 32`, and so no more frames, are counted without a wrap; the frames are those of
the packets whose frame phase is over. -/
theorem counterProperty : Obligations.CounterProperty := by
  intro m n s hc h hlt
  have hle := h.framesSince_length_le hc
  have hpkt : s.blk.tmPktCnt.toNat = (packetsSince m s).length := by
    rw [h.pktCount, BitVec.toNat_ofNat, Nat.mod_eq_of_lt hlt]
  have hfrm : s.blk.tmFrameCnt.toNat = (framesSince n s).length := by
    rw [h.frmCount, BitVec.toNat_ofNat, Nat.mod_eq_of_lt (hle.trans_lt hlt)]
  refine ⟨hpkt, hfrm, ?_, fun hphase => ?_, fun hphase => ?_⟩
  · rwa [hpkt, hfrm]
  · rw [hfrm, h.framesSince_length hc, framedPackets_of_not_framePending m hphase]
  · rw [hfrm, h.framesSince_length hc, framedPackets_of_framePending m hphase]

/-- Settles O51: the `k`-th frame was built with sequence number `k mod 2 ^ 24`, which its header holds. -/
theorem frameSequenceNumbers : Obligations.FrameSequenceNumbers := by
  intro m n s k f _ h hk
  rw [h.frames] at hk
  obtain ⟨p, _, hbuild⟩ := buildFrame_of_framesFrom_getElem? hk
  rw [be_buildFrame_seq hbuild, Nat.zero_add, Nat.mod_mod]

end Sys2Proof.Machine
end

section
/-! PROOF. The effects of NOP and of START (`44_host_commands.md` R232, R233), and the value a legal read gives at each
register slot (R230): the configuration's and the header's words as numbers, and the reserved slots. -/

namespace Sys2Proof.Machine

/-! ## NOP and START -/

theorem exec_nop (s : State) : exec .nop s = .next s := rfl

theorem exec_start (s : State) : exec .start s = .next (beginRun true s) := rfl

theorem beginRun_of_idle (r : Bool) {s : State} (h : s.blk.pstate = .idle) :
    beginRun r s = { s with blk := { s.blk with run := r, pstate := .build } } :=
  if_pos h

theorem beginRun_of_ne_idle (r : Bool) {s : State} (h : s.blk.pstate ≠ .idle) : beginRun r s = illegalCmd s :=
  if_neg h

/-- Settles O15: the meaning of NOP is the state itself. -/
theorem nopHasNoEffect : Obligations.NopHasNoEffect := exec_nop

/-- Settles O16: START begins a run from `IDLE`, and elsewhere is an illegal command, which writes `ERR_CMD` alone. -/
theorem startBeginsFreeRun : Obligations.StartBeginsFreeRun := by
  intro s
  constructor
  · intro hidle
    rw [exec_start, beginRun_of_idle true hidle]
  · intro hidle
    rw [exec_start, beginRun_of_ne_idle true hidle, illegalCmd]

/-! ## The words of the register slots -/

/-- In a legal configuration the four parameters fill `CFG_FRAME` without overlap (R113). -/
theorem cfgFrameWord_toNat {c : Config} (h : c.Legal) :
    (cfgFrameWord c).toNat = c.frameLen + c.scid * 2 ^ 16 + c.vcid * 2 ^ 24 + c.tfvn * 2 ^ 30 := by
  obtain ⟨⟨_, hlen⟩, hscid, hvcid, htfvn, _⟩ := h
  rw [cfgFrameWord, BitVec.toNat_ofNat]
  omega

/-- A legal `IDLE_APID` fits its register (R9, R114). -/
theorem cfgIdleWord_toNat {c : Config} (h : c.Legal) : (cfgIdleWord c).toNat = c.idleApid := by
  obtain ⟨_, _, _, _, hapid, _⟩ := h
  rw [cfgIdleWord, BitVec.toNat_ofNat]
  omega

/-- `HDR_ID` reads as the captured 16-bit word, with nothing above it (R115). -/
theorem readSlot_hdrId_toNat (s : State) : (readSlot s 0x1C).toNat = s.blk.hdrId.toNat := by
  rw [readSlot, BitVec.ofNat_toNat, BitVec.toNat_setWidth_of_le (by decide)]

/-- `HDR_SEQLEN` holds two captured 16-bit words side by side (R116). -/
theorem readSlot_hdrSeqLen_toNat (s : State) :
    (readSlot s 0x20).toNat = s.blk.hdrSeq.toNat + s.blk.hdrLen.toNat * 2 ^ 16 := by
  have := s.blk.hdrSeq.isLt
  have := s.blk.hdrLen.isLt
  rw [readSlot, BitVec.toNat_ofNat]
  omega

/-- The slots behind the ninth one are reserved and read as 0 (R223). -/
theorem readSlot_reserved (s : State) {off : Nat} (h : 0x20 < off) : readSlot s off = 0 := by
  unfold readSlot
  split
  case h_10 => rfl
  all_goals omega

/-- Settles O31: the access reaches its slot, and each slot's word is wide enough for the number the spec lists. -/
theorem legalReadValues : Obligations.LegalReadValues := by
  intro s off hc hoff halign
  refine ⟨readSlot s off, memRead_of_slot (accessTarget_slot s.cfg hoff halign), ?_⟩
  split_ifs with hcmd hstatus hpkt hfrm hpos hcfgFrame hcfgIdle hid hseqLen
  · rw [hcmd]; rfl
  · rw [hstatus]; exact statusWord_toNat s.blk
  · rw [hpkt]; rfl
  · rw [hfrm]; rfl
  · rw [hpos]; rfl
  · rw [hcfgFrame]; exact cfgFrameWord_toNat hc
  · rw [hcfgIdle]; exact cfgIdleWord_toNat hc
  · rw [hid]; exact readSlot_hdrId_toNat s
  · rw [hseqLen]; exact readSlot_hdrSeqLen_toNat s
  · rw [readSlot_reserved s (by omega)]; rfl

end Sys2Proof.Machine
end

section
/-! PROOF. The effect of SRESET (`70_reset_and_hazards.md` R280, R281): it is `do_reset`, whose laws say what it writes. -/

namespace Sys2Proof.Machine

theorem exec_sreset (s : State) : exec .sreset s = .next (doReset s) := rfl

/-- Settles O19: SRESET answers `doReset s`, which keeps three parts of the state; the `doReset_blk_*` laws give the items. -/
theorem sresetRestoresResetValues : Obligations.SresetRestoresResetValues := by
  intro s
  refine ⟨doReset s, exec_sreset s, doReset_cfg s, doReset_env s, doReset_host s, ?_⟩
  simp only [doReset_blk_pstate, doReset_blk_run, doReset_blk_stopReq, doReset_blk_errCmd, doReset_blk_lastBuild,
    doReset_blk_ephase, doReset_blk_bres, doReset_blk_tmPktCnt, doReset_blk_tmFrameCnt, doReset_blk_rdPos,
    doReset_blk_hdrId, doReset_blk_hdrSeq, doReset_blk_hdrLen, and_self]

end Sys2Proof.Machine
end

section
/-! PROOF. The command words (`30_encoding.md` R91, R118, R119): which words are a command's, by the two fields of the word,
and the name under which each other word is rejected. -/

namespace Sys2Proof.Machine

/-- The fields `RSV` and `OP` make up the whole word (R91). -/
theorem word_toNat_eq_fields (v : Word) : v.toNat = (cmdRsv v).toNat * 256 + (cmdOp v).toNat := by
  simp only [cmdRsv, cmdOp, BitVec.extractLsb'_toNat, Nat.shiftRight_eq_div_pow]
  omega

/-- The words of the commands are those with `RSV = 0` and `OP` below 5 (R118). -/
theorem exists_eq_encode_iff {v : Word} : (∃ i, v = encode i) ↔ cmdRsv v = 0 ∧ (cmdOp v).toNat < 5 := by
  constructor
  · rintro ⟨i, rfl⟩
    cases i <;> decide
  · rintro ⟨hrsv, hop⟩
    have hv := word_toNat_eq_fields v
    have hzero : (cmdRsv v).toNat = 0 := by rw [hrsv]; rfl
    have hword : ∀ i : Instr, (encode i).toNat = (cmdOp v).toNat → v = encode i := fun i hi =>
      BitVec.eq_of_toNat_eq (by omega)
    generalize (cmdOp v).toNat = op at hop hword
    match op, hop with
    | 0, _ => exact ⟨.nop, hword .nop rfl⟩
    | 1, _ => exact ⟨.start, hword .start rfl⟩
    | 2, _ => exact ⟨.step, hword .step rfl⟩
    | 3, _ => exact ⟨.stop, hword .stop rfl⟩
    | 4, _ => exact ⟨.sreset, hword .sreset rfl⟩

/-- A word that is no command's is rejected by the first field that makes it illegal (R119). -/
theorem decode_eq_error {v : Word} {e : DecodeError} : decode v = .error e ↔
    (¬ ∃ i, v = encode i) ∧ e = if cmdRsv v = 0 then .reservedOpcode else .reservedBits := by
  constructor
  · intro h
    refine ⟨?_, ?_⟩
    · rintro ⟨i, hi⟩
      rw [decode_eq_ok.mpr hi] at h
      cases h
    · unfold decode at h
      split at h <;> cases h
      rfl
  · rintro ⟨hnone, rfl⟩
    unfold decode
    split
    case h_1 r hr =>
      have hok : decode v = .ok r.instr := by simp only [decode, hr]
      exact absurd ⟨_, decode_eq_ok.mp hok⟩ hnone
    case h_2 => rfl

/-- Settles O2: decode compares the whole word with the encodings, and so recognises exactly these. -/
theorem decodeEncodeAgree : Obligations.DecodeEncodeAgree :=
  ⟨fun _ _ => decode_eq_ok.mpr rfl, fun _ _ h => (decode_eq_ok.mp h).symm⟩

/-- Settles O3: a word whose `RSV` is not 0 is no command's, and with `RSV = 0` only the opcodes below 5 are. -/
theorem reservedWordsRejected : Obligations.ReservedWordsRejected := by
  intro v
  rw [decode_eq_error, decode_eq_error, exists_eq_encode_iff]
  by_cases hrsv : cmdRsv v = 0#24
  · simp [hrsv]
  · simp [hrsv]

/-- Settles O1: nine words, decoded. -/
theorem opcodeWordsDecode : Obligations.OpcodeWordsDecode := by
  unfold Obligations.OpcodeWordsDecode
  decide

end Sys2Proof.Machine
end

section
/-! PROOF. The packet header's fields and its six bytes (`30_encoding.md` R93 to R98), and what a packet read, the idle
generator and the frame builder answer for each length (`40_packet_parser.md` R132 to R136, R152, R180). -/

namespace Sys2Proof.Machine

/-! ## The three header words and their fields -/

/-- Word 0 is determined by its four fields (R94). -/
theorem bits_word0 {w : Nat} (h : w < 65536) :
    bits w 15 13 % 2 ^ 3 * 2 ^ 13 + bits w 12 12 % 2 ^ 1 * 2 ^ 12 + bits w 11 11 % 2 ^ 1 * 2 ^ 11 + bits w 10 0 % 2 ^ 11 = w := by
  simp only [bits]
  omega

/-- Word 1 is determined by its two fields (R95). -/
theorem bits_word1 {w : Nat} (h : w < 65536) : bits w 15 14 % 2 ^ 2 * 2 ^ 14 + bits w 13 0 % 2 ^ 14 = w := by
  simp only [bits]
  omega

/-- The bytes of the decoded fields are the header's three words again (R98). -/
theorem bytes_hdrFields (h : List Byte) :
    (hdrFields h).bytes = put16 (be (slice h 0 2)) ++ put16 (be (slice h 2 4)) ++ put16 (be (slice h 4 6)) := by
  have hw0 := bits_word0 (be_slice_lt h 0)
  have hw1 := bits_word1 (be_slice_lt h 2)
  rw [PktHeader.bytes, hdrFields_dataLen_toNat]
  simp only [hdrFields, BitVec.toNat_ofNat]
  rw [hw0, hw1]

/-- Six bytes are their three 16-bit words in a row. -/
theorem put16_be_slices {h : List Byte} (hlen : h.length = 6) :
    put16 (be (slice h 0 2)) ++ put16 (be (slice h 2 4)) ++ put16 (be (slice h 4 6)) = h := by
  have hslice : ∀ i, i + 2 ≤ 6 → put16 (be (slice h i (i + 2))) = slice h i (i + 2) := fun i hi =>
    put16_be (by rw [slice_length_of_le (by omega)]; omega)
  rw [hslice 0 (by omega), hslice 2 (by omega), hslice 4 (by omega), slice_append_slice (by omega) (by omega),
    slice_append_slice (by omega) (by omega), slice_all hlen.symm]

/-- The fields fill their words without overlap, so each one is read back (R94 to R96). -/
theorem hdrFields_bytes (f : PktHeader) : hdrFields f.bytes = f := by
  obtain ⟨version, type, shf, apid, seqFlags, seqCount, dataLen⟩ := f
  have := version.isLt
  have := type.isLt
  have := shf.isLt
  have := apid.isLt
  have := seqFlags.isLt
  have := seqCount.isLt
  rw [PktHeader.bytes, hdrFields_put16_words (by simp only; omega) (by simp only; omega) dataLen.isLt]
  simp only [PktHeader.mk.injEq]
  refine ⟨?_, ?_, ?_, ?_, ?_, ?_, ?_⟩ <;> apply BitVec.eq_of_toNat_eq <;> simp only [bits, BitVec.toNat_ofNat] <;> omega

/-- Settles O4: the fields determine the three words and the words determine the fields. -/
theorem headerFieldsRoundTrip : Obligations.HeaderFieldsRoundTrip :=
  ⟨fun f => ⟨rfl, hdrFields_bytes f⟩, fun h hlen => (bytes_hdrFields h).trans (put16_be_slices hlen)⟩

/-- Settles O5: three headers, decoded. -/
theorem headerFieldsExamples : Obligations.HeaderFieldsExamples := by
  unfold Obligations.HeaderFieldsExamples
  decide

/-! ## The parser -/

/-- A packet is read exactly when it fits the stream (R132). -/
theorem pktRead_ok_iff {S : List Byte} {pos : Nat} :
    (∃ p pos', pktRead S pos = .ok (p, pos')) ↔ pos + 7 + be (slice S (pos + 4) (pos + 6)) ≤ S.length := by
  constructor
  · rintro ⟨p, pos', h⟩
    obtain ⟨hnext, hfits, _⟩ := pktRead_eq_ok.mp h
    exact hnext ▸ hfits
  · exact fun hfits => ⟨_, _, pktRead_eq_ok.mpr ⟨rfl, hfits, rfl⟩⟩

/-- Settles O6: the three answers of the parser, each with its own condition. -/
theorem packetReadOutcomes : Obligations.PacketReadOutcomes :=
  fun _ _ => ⟨pktRead_eq_eos, fun _ => pktRead_eq_corrupt, pktRead_ok_iff⟩

/-- A part of a list in the middle of three. -/
theorem slice_append_middle (a p b : List Byte) {i j : Nat} (h : j ≤ p.length) :
    slice (a ++ p ++ b) (a.length + i) (a.length + j) = slice p i j := by
  rw [slice_append_left (by rw [List.length_append]; omega), slice_append_right (by omega), Nat.add_sub_cancel_left,
    Nat.add_sub_cancel_left]

/-- Settles O8: the length bytes at the read position are the packet's own, and its slice is the packet. -/
theorem anyPacketIsReadBack : Obligations.AnyPacketIsReadBack := by
  intro a p b hmin hlen
  have hfield : be (slice (a ++ p ++ b) (a.length + 4) (a.length + 6)) = be (slice p 4 6) := by
    rw [slice_append_middle a p b hmin]
  have hwhole : slice (a ++ p ++ b) a.length (a.length + p.length) = p := by
    rw [← Nat.add_zero a.length, Nat.add_assoc, Nat.zero_add, slice_append_middle a p b le_rfl, slice_all rfl]
  rw [hdrFields_dataLen_toNat, slice_slice (by omega)] at hlen
  simp only [Nat.zero_add] at hlen
  refine pktRead_eq_ok.mpr ⟨?_, ?_, hwhole.symm⟩
  · rw [hfield]
    omega
  · simp only [List.length_append]
    omega

/-! ## The idle generator and the frame builder -/

/-- Settles O9: the two bounds of `make_idle`. -/
theorem idleLengthBounds : Obligations.IdleLengthBounds := by
  intro c L
  refine ⟨makeIdle_eq_error, ?_, fun h => ⟨_, makeIdle_eq_ok.mpr ⟨h, rfl⟩⟩⟩
  rintro ⟨q, hq⟩
  exact (makeIdle_eq_ok.mp hq).1

/-- Settles O12: header, packet and idle packet fill the frame. -/
theorem frameLengthExact : Obligations.FrameLengthExact :=
  fun _ _ _ _ _ h => buildFrame_length h

end Sys2Proof.Machine
end

section
/-! PROOF. The effects of STEP, STOP and SRESET (`44_host_commands.md` R234 to R236), and the engine's turn in every state
with the iteration it makes from `BUILD` (`43_producer.md` R190 to R198). -/

namespace Sys2Proof.Machine

/-! ## STEP, STOP and SRESET -/

theorem exec_step (s : State) : exec .step s = .next (beginRun false s) := rfl

/-- Settles O17: STEP begins an iteration from `IDLE`, and elsewhere is an illegal command, which writes `ERR_CMD` alone. -/
theorem stepBeginsOneIteration : Obligations.StepBeginsOneIteration := by
  intro s
  constructor
  · intro hidle
    rw [exec_step, beginRun_of_idle false hidle]
  · intro hidle
    rw [exec_step, beginRun_of_ne_idle false hidle, illegalCmd]

theorem exec_stop_of_idle_or_wait {s : State} (h : s.blk.pstate = .idle ∨ s.blk.pstate = .wait) :
    exec .stop s = .next (enterTerminal .stopped s) := by
  rcases h with h | h <;> simp only [exec, execStop, h]

theorem exec_stop_of_build_or_emit {s : State} (h : s.blk.pstate = .build ∨ s.blk.pstate = .emit) :
    exec .stop s = .next { s with blk := { s.blk with stopReq := true } } := by
  rcases h with h | h <;> simp only [exec, execStop, h]

theorem exec_stop_of_terminal {s : State} (h : s.blk.pstate.Terminal) : exec .stop s = .next s := by
  rcases h with h | h | h <;> simp only [exec, execStop, h]

/-- Settles O18: the three cases of STOP. -/
theorem stopInEachState : Obligations.StopInEachState :=
  fun _ => ⟨exec_stop_of_idle_or_wait, exec_stop_of_build_or_emit, exec_stop_of_terminal⟩

/-- A reset's free value for `PKT_BUF` is within R34's bounds. -/
theorem freePktBuf_length (n : Nat) : 7 ≤ (freePktBuf n).length ∧ (freePktBuf n).length ≤ maxPkt := by
  have := (Config.freePktLen n).isLt
  simp only [freePktBuf, List.length_map, List.length_range, maxPkt]
  omega

/-- A reset's free value for `FRM_BUF` has R35's length. -/
theorem freeFrmBuf_length (c : Config) (n : Nat) : (freeFrmBuf c n).length = c.frameLen := by
  simp [freeFrmBuf]

/-- Settles O20: SRESET fills the buffers with free values, whose lengths are bounded. -/
theorem sresetBufferLengths : Obligations.SresetBufferLengths := by
  intro s t h
  cases h
  exact ⟨(freePktBuf_length _).1, (freePktBuf_length _).2, freeFrmBuf_length _ _⟩

/-! ## The engine's turn -/

/-- In `WAIT` the engine's turn is `E_WAKE` (R190). -/
theorem engineTurn_of_wait {s : State} (h : s.blk.pstate = .wait) : engineTurn s = .next (eWake s) := by
  simp only [engineTurn, enabledStep, h, runEngineStep]

/-- With no step enabled the engine's turn changes nothing (log 1). -/
theorem engineTurn_of_quiescent {s : State} (h : s.blk.Quiescent) : engineTurn s = .next s := by
  rcases h with h | h | h | h <;> simp only [engineTurn, enabledStep, h]

/-- The engine's turn is never refused. -/
theorem engineTurn_ne_refused (s : State) (r : Refusal) : engineTurn s ≠ .refused r := by
  unfold engineTurn
  split
  case h_1 e _ =>
    cases e with
    | eBuild =>
      simp only [runEngineStep, eBuild]
      split
      · split <;> simp
      · simp
    | eEmitPkt => simp [runEngineStep]
    | eEmitFrm => simp [runEngineStep]
    | eWake => simp [runEngineStep]
  case h_2 => simp

/-- Settles O23: the table of the enabled steps. -/
theorem enabledStepPerState : Obligations.EnabledStepPerState :=
  fun _ => ⟨engineTurn_of_build, engineTurn_of_packetPending, engineTurn_of_framePending, engineTurn_of_wait,
    engineTurn_of_quiescent⟩

/-- Settles O29: `E_WAKE` writes `PSTATE` alone. -/
theorem wakeStartsNextIteration : Obligations.WakeStartsNextIteration :=
  fun _ => engineTurn_of_wait

/-! ## E_BUILD on a packet -/

/-- The captured words hold the header's numbers exactly (R36 to R38). -/
theorem captureHeader_toNat (h : List Byte) (s : State) :
    (captureHeader h s).blk.hdrId.toNat = be (slice h 0 2) ∧ (captureHeader h s).blk.hdrSeq.toNat = be (slice h 2 4) ∧
      (captureHeader h s).blk.hdrLen.toNat = be (slice h 4 6) := by
  simp only [captureHeader_blk_hdrId, captureHeader_blk_hdrSeq, captureHeader_blk_hdrLen, BitVec.toNat_ofNat]
  exact ⟨Nat.mod_eq_of_lt (be_slice_lt h 0), Nat.mod_eq_of_lt (be_slice_lt h 2), Nat.mod_eq_of_lt (be_slice_lt h 4)⟩

/-- `BRES` is the result of the new packet's build (R192). -/
theorem loadPacket_bres (p : List Byte) (pos' : Nat) (s : State) : (loadPacket p pos' s).blk.bres =
    recordedResult (buildFrame s.cfg p (s.blk.tmFrameCnt.toNat % 2 ^ 24)) := rfl

/-- A built frame is in `FRM_BUF` (R192). -/
theorem loadPacket_frmBuf {p f : List Byte} {s : State} (pos' : Nat)
    (h : buildFrame s.cfg p (s.blk.tmFrameCnt.toNat % 2 ^ 24) = .ok f) : (loadPacket p pos' s).blk.frmBuf = f := by
  simp only [loadPacket, h]

/-- Settles O26: the parser answers the packet, which is loaded with its captures and its frame. -/
theorem buildReadsPacket : Obligations.BuildReadsPacket := by
  intro s p pos' hstate hstream hread
  obtain ⟨hid, hseq, hlen⟩ := captureHeader_toNat p s
  refine ⟨loadPacket p pos' s, (engineTurn_of_build hstate).trans (eBuild_ok hstream hread), rfl, rfl, rfl, hid, hseq, hlen,
    rfl, rdPos_exact hstream hread, rfl, rfl, rfl, rfl, rfl, rfl, rfl, rfl, fun f hf => ⟨?_, loadPacket_frmBuf pos' hf⟩,
    fun he => ?_, fun he => ?_⟩
  · rw [loadPacket_bres, hf, recordedResult]
  · rw [loadPacket_bres, he, recordedResult]
  · rw [loadPacket_bres, he, recordedResult]

/-! ## One iteration -/

/-- The state in which an iteration that reads `p` ends: the packet is loaded, emitted and framed (R192, R195 to R197). -/
def iterationEnd (p : List Byte) (pos' : Nat) (s : State) : State := eEmitFrm (eEmitPkt (loadPacket p pos' s))

/-- From `BUILD` with a whole packet ahead, three engine turns make the iteration (R190). -/
theorem engineTurns_of_packet {s : State} {p : List Byte} {pos' : Nat} (hstate : s.blk.pstate = .build)
    (hstream : s.env.StreamFits) (hread : pktRead s.env.stream s.blk.rdPos.toNat = .ok (p, pos')) :
    engineTurn s = .next (loadPacket p pos' s) ∧
      engineTurn (loadPacket p pos' s) = .next (eEmitPkt (loadPacket p pos' s)) ∧
      engineTurn (eEmitPkt (loadPacket p pos' s)) = .next (iterationEnd p pos' s) :=
  ⟨(engineTurn_of_build hstate).trans (eBuild_ok hstream hread), engineTurn_of_packetPending ⟨rfl, rfl⟩,
    engineTurn_of_framePending ⟨rfl, rfl⟩⟩

/-- An iteration in one record: the packet is emitted and counted, its frame when it was built (R195 to R197). -/
theorem iterationEnd_eq (p : List Byte) (pos' : Nat) (s : State) : iterationEnd p pos' s = { s with
    env := { s.env with
      pktOut := s.env.pktOut ++ [p]
      frmOut := if (loadPacket p pos' s).blk.bres = .ok then s.env.frmOut ++ [(loadPacket p pos' s).blk.frmBuf]
        else s.env.frmOut }
    blk := { (loadPacket p pos' s).blk with
      tmPktCnt := s.blk.tmPktCnt + 1
      tmFrameCnt := if (loadPacket p pos' s).blk.bres = .ok then s.blk.tmFrameCnt + 1 else s.blk.tmFrameCnt
      lastBuild := (loadPacket p pos' s).blk.bres
      ephase := .pkt
      pstate := if s.blk.stopReq = true then .stopped else if s.blk.run = true then .wait else .idle
      run := if s.blk.stopReq = true then false else s.blk.run
      stopReq := false } } := by
  rw [iterationEnd, eEmitFrm_eq]
  rfl

theorem recordedResult_error_ne_ok (e : BuildErr) : recordedResult (.error e) ≠ .ok := by
  cases e <;> simp [recordedResult]

/-- Settles O22: after STEP the three engine turns make one iteration, whose end is `IDLE` since `RUN` is 0. -/
theorem stepRunsExactlyOneIteration : Obligations.StepRunsExactlyOneIteration := by
  intro s p pos' hidle hstop hstream hread
  let s1 : State := { s with blk := { s.blk with run := false, pstate := .build } }
  have hexec : exec .step s = .next s1 := (stepBeginsOneIteration s).1 hidle
  have hpos : (BitVec.ofNat 32 pos').toNat = pos' := rdPos_exact hstream hread
  obtain ⟨h1, h2, h3⟩ := engineTurns_of_packet (s := s1) rfl hstream hread
  refine ⟨s1, _, _, _, hexec, h1, h2, h3, ?_⟩
  rw [iterationEnd_eq]
  refine ⟨by simp [s1, hstop], by simp [s1], hpos, rfl, rfl, rfl, fun f hf => ?_, fun e he => ?_⟩
  · have hbres : (loadPacket p pos' s1).blk.bres = .ok := congrArg recordedResult hf
    have hbuf : (loadPacket p pos' s1).blk.frmBuf = f := loadPacket_frmBuf (s := s1) pos' hf
    simp [hbres, hbuf, s1]
  · have hbres : (loadPacket p pos' s1).blk.bres = recordedResult (.error e) := congrArg recordedResult he
    simp [hbres, recordedResult_error_ne_ok e, s1]

/-- Settles O30: a STOP before the frame phase ends the iteration in `STOPPED`, one after it stops the block in `WAIT`. -/
theorem stopAroundFramePhase : Obligations.StopAroundFramePhase := by
  intro s hstate hphase hrun hstop
  have hbefore : exec .stop s = .next { s with blk := { s.blk with stopReq := true } } :=
    exec_stop_of_build_or_emit (.inr hstate)
  have hwait : (eEmitFrm s).blk.pstate = .wait := by simp [eEmitFrm_eq, hrun, hstop]
  have hafter : exec .stop (eEmitFrm s) = .next (enterTerminal .stopped (eEmitFrm s)) :=
    exec_stop_of_idle_or_wait (.inr hwait)
  have hturn : engineTurn { s with blk := { s.blk with stopReq := true } } =
      .next (eEmitFrm { s with blk := { s.blk with stopReq := true } }) := engineTurn_of_framePending ⟨hstate, hphase⟩
  have hsame : eEmitFrm { s with blk := { s.blk with stopReq := true } } = enterTerminal .stopped (eEmitFrm s) := by
    simp [eEmitFrm_eq, enterTerminal]
  exact ⟨_, _, _, hbefore, hturn.trans (congrArg _ hsame), engineTurn_of_framePending ⟨hstate, hphase⟩, hafter, rfl⟩

end Sys2Proof.Machine
end

section
/-! PROOF. One transition by its kind (`20_memory.md` R78; `44_host_commands.md` R220 to R231): what `step` answers for each
event, when it is refused, and that the end of a run is final (`43_producer.md` R204). -/

namespace Sys2Proof.Machine

/-! ## One equation per kind of event -/

theorem step_of_no_event {s : State} (hc : s.cfg.Legal) (hp : s.host.pending = []) : step s = engineTurn s := by
  simp only [step, fetch, configProblem_eq_none.mpr hc, hp]

/-- In a legal configuration the first pending event is the next transition (R78). -/
theorem fetch_of_event {s : State} {e : Event} {rest : List Event} (hc : s.cfg.Legal) (hp : s.host.pending = e :: rest) :
    fetch s = takeEvent e (setPending rest s) := by
  simp only [fetch, configProblem_eq_none.mpr hc, hp]

theorem step_of_engine_event {s : State} {rest : List Event} (hc : s.cfg.Legal) (hp : s.host.pending = .engine :: rest) :
    step s = engineTurn (setPending rest s) := by
  simp only [step, fetch_of_event hc hp, takeEvent]

theorem step_of_reset_input {s : State} {rest : List Event} (hc : s.cfg.Legal)
    (hp : s.host.pending = .resetInput :: rest) : step s = .next (doReset (setPending rest s)) := by
  simp only [step, fetch_of_event hc hp, takeEvent]

/-- A host access that runs no command. -/
theorem step_of_hostAccess_other {s : State} {a : Access} {rest : List Event} {o : Host.Outcome State Fault Refusal}
    (hc : s.cfg.Legal) (hp : s.host.pending = .access a :: rest) (ha : hostAccess a (setPending rest s) = .other o) :
    step s = o := by
  simp only [step, fetch_of_event hc hp, takeEvent, ha]

/-- A host access that runs a command (R231). -/
theorem step_of_hostAccess_command {s : State} {a : Access} {rest : List Event} {i : Instr} (hc : s.cfg.Legal)
    (hp : s.host.pending = .access a :: rest) (ha : hostAccess a (setPending rest s) = .command i (setPending rest s)) :
    step s = finishCommand (exec i (setPending rest s)) := by
  simp only [step, fetch_of_event hc hp, takeEvent, ha]

/-! ## What an access reaches -/

/-- The address of `CMD` is `BASE` (R66). -/
theorem accessTarget_cmd (c : Config) : accessTarget c c.base 4 = .slot 0 :=
  accessTarget_slot c (off := 0) (by decide) (by decide)

theorem accessTarget_of_misaligned (c : Config) {off width : Nat} (hoff : off < windowSize)
    (h : width ≠ 4 ∨ off % 4 ≠ 0) : accessTarget c (c.base + off) width = .illegal := by
  have hnot : ¬ (width = 4 ∧ off % 4 = 0) := by omega
  simp [accessTarget, hoff, hnot]

theorem accessTarget_of_outside {c : Config} {addr : Nat} (width : Nat) (h : addr < c.base ∨ c.base + 64 ≤ addr) :
    accessTarget c addr width = .outside :=
  if_neg (by simp only [windowSize]; omega)

/-- A write of a command's word to `CMD` runs it (R229). -/
theorem hostWrite_of_command {s : State} {addr width : Nat} {v : Word} {i : Instr}
    (h : accessTarget s.cfg addr width = .slot 0) (hd : decode v = .ok i) : hostWrite addr width v s = .command i s := by
  simp [hostWrite, h, hd]

/-- A write of any other word to `CMD` is an illegal command (R237). -/
theorem hostWrite_of_illegal_word {s : State} {addr width : Nat} {v : Word} {e : DecodeError}
    (h : accessTarget s.cfg addr width = .slot 0) (hd : decode v = .error e) :
    hostWrite addr width v s = .other (.next (giveReply .accepted (illegalCmd s))) := by
  simp [hostWrite, h, hd]

/-- A read or a write of another width or alignment gets the bus error (R222). -/
theorem hostAccess_of_illegal {s : State} {a : Access} {addr width : Nat} {v : Word}
    (ha : a = .read addr width ∨ a = .write addr width v) (h : accessTarget s.cfg addr width = .illegal) :
    hostAccess a s = .other (.next (giveReply .busError s)) := by
  rcases ha with rfl | rfl
  · simp only [hostAccess, memRead, h]
  · simp only [hostAccess, hostWrite, h]

/-- The block does not respond to a read or a write outside its window (R222). -/
theorem hostAccess_of_outside {s : State} {a : Access} {addr width : Nat} {v : Word}
    (ha : a = .read addr width ∨ a = .write addr width v) (h : accessTarget s.cfg addr width = .outside) :
    hostAccess a s = .other (.next (giveReply .noResponse s)) := by
  rcases ha with rfl | rfl
  · simp only [hostAccess, memRead, h]
  · simp only [hostAccess, hostWrite, h]

/-! ## The obligations about one event -/

/-- Settles O33: a 4-byte write to `BASE` reaches `CMD`, and its word decodes. -/
theorem stepRunsCommandWord : Obligations.StepRunsCommandWord := by
  intro s rest v i hc hp hd
  obtain ⟨t, ht⟩ := exec_completes i (setPending rest s)
  rw [step_of_hostAccess_command hc hp (hostWrite_of_command (accessTarget_cmd s.cfg) hd), ht]
  rw [setPending] at ht
  rw [ht]
  rfl

/-- Settles O34: an engine event, and the empty list, are the engine's turn. -/
theorem stepRunsEngine : Obligations.StepRunsEngine :=
  fun _ hc => ⟨fun _ => step_of_engine_event hc, step_of_no_event hc⟩

/-- Settles O35: both are `doReset` of the state without the event. -/
theorem resetInputEqualsSreset : Obligations.ResetInputEqualsSreset :=
  fun s rest hc hp => ⟨doReset (setPending rest s), step_of_reset_input hc hp, rfl, rfl, rfl⟩

/-- Settles O36: such a word is rejected by the decoder, and an illegal command writes `ERR_CMD` alone. -/
theorem reservedWordSetsErrCmdOnly : Obligations.ReservedWordSetsErrCmdOnly := by
  intro s rest v hc hp hreserved
  have hnone : ¬ ∃ i, v = encode i := by
    rw [exists_eq_encode_iff]
    rintro ⟨hrsv, hop⟩
    rcases hreserved with h | h
    · exact h hrsv
    · omega
  exact step_of_hostAccess_other hc hp
    (hostWrite_of_illegal_word (accessTarget_cmd s.cfg) (decode_eq_error.mpr ⟨hnone, rfl⟩))

/-- Settles O37: the answer of a read is the only thing recorded. -/
theorem readsHaveNoSideEffect : Obligations.ReadsHaveNoSideEffect := by
  intro s rest addr width hc hp
  exact step_of_hostAccess_other hc hp rfl

/-- Settles O38: the access reaches a slot that is not `CMD`. -/
theorem writesOutsideCmdIgnored : Obligations.WritesOutsideCmdIgnored := by
  intro s rest off v hc hoff halign hne hp
  have hslot : accessTarget (setPending rest s).cfg (s.cfg.base + off) 4 = .slot off := accessTarget_slot s.cfg hoff halign
  exact step_of_hostAccess_other hc hp (hostWrite_of_slot_ne_cmd hslot hne v)

/-- Settles O39: the access reaches the window and no slot. -/
theorem busErrorChangesNothing : Obligations.BusErrorChangesNothing := by
  intro s rest a off width v hc hoff hbad ha hp
  exact step_of_hostAccess_other hc hp (hostAccess_of_illegal ha (accessTarget_of_misaligned s.cfg hoff hbad))

/-- Settles O40: the access does not reach the window. -/
theorem outsideWindowNoResponse : Obligations.OutsideWindowNoResponse := by
  intro s rest a addr width v hc hout ha hp
  exact step_of_hostAccess_other hc hp (hostAccess_of_outside ha (accessTarget_of_outside width hout))

/-! ## When a step completes -/

/-- In a legal configuration a step completes or is the engine's turn, which the host's side does not enter. -/
theorem step_completes_or_engine {s : State} (hc : s.cfg.Legal) :
    (∃ t, step s = .next t) ∨ ∃ u, u.env = s.env ∧ step s = engineTurn u := by
  cases hp : s.host.pending with
  | nil => exact .inr ⟨s, rfl, step_of_no_event hc hp⟩
  | cons e rest =>
    cases e with
    | engine => exact .inr ⟨setPending rest s, rfl, step_of_engine_event hc hp⟩
    | resetInput => exact .inl ⟨_, step_of_reset_input hc hp⟩
    | access a =>
      cases a with
      | read addr width => exact .inl ⟨_, step_of_hostAccess_other hc hp rfl⟩
      | write addr width v =>
        rcases hostWrite_cases addr width v (setPending rest s) with ⟨_, i, _, hw⟩ | ⟨_, _, hw⟩ | ⟨_, r, hw⟩
        · obtain ⟨t, ht⟩ := exec_completes i (setPending rest s)
          refine .inl ⟨giveReply .accepted t, ?_⟩
          rw [step_of_hostAccess_command hc hp hw, ht, finishCommand]
        · exact .inl ⟨_, step_of_hostAccess_other hc hp hw⟩
        · exact .inl ⟨_, step_of_hostAccess_other hc hp hw⟩

/-- Settles O43: only the engine's turn could stop, and it completes on a stream within R22's bound. -/
theorem everyTransitionCompletes : Obligations.EveryTransitionCompletes := by
  intro s hc hstream
  rcases step_completes_or_engine hc with hstep | ⟨u, henv, hstep⟩
  · exact hstep
  · rw [hstep]
    exact engineTurn_completes (henv ▸ hstream)

/-- Settles O42: the configuration check is the only source of that refusal. -/
theorem illegalConfigurationRefused : Obligations.IllegalConfigurationRefused := by
  intro s
  constructor
  · rintro ⟨e, he⟩ hc
    rcases step_completes_or_engine hc with ⟨t, hstep⟩ | ⟨u, _, hstep⟩
    · rw [hstep] at he
      cases he
    · exact engineTurn_ne_refused u _ (hstep.symm.trans he)
  · intro hc
    obtain ⟨e, he⟩ := Option.ne_none_iff_exists'.mp (mt configProblem_eq_none.mp hc)
    exact ⟨e, by simp only [step, fetch, he]⟩

/-! ## The end of a run -/

/-- Settles O44: the next transition is the engine's turn, with no step enabled. -/
theorem quiescentBlockStays : Obligations.QuiescentBlockStays :=
  fun _ hc hp hq => (step_of_no_event hc hp).trans (engineTurn_of_quiescent hq)

theorem run_succ_of_step {s t : State} (h : step s = .next t) (k : Nat) :
    Host.Core.run Sys2Proof.core (k + 1) s = Host.Core.run Sys2Proof.core k t := by
  have hcore : Sys2Proof.core.step s = .next t := h
  simp only [Host.Core.run, hcore]

/-- A state that a step leaves as it is, is left so by any number of steps. -/
theorem run_of_step_eq_self {s : State} (h : step s = .next s) (k : Nat) :
    Host.Core.run Sys2Proof.core k s = .next s := by
  induction k with
  | zero => rfl
  | succ k ih => rw [run_succ_of_step h, ih]

/-- Settles O45: the state itself no longer changes. -/
theorem endOfRunIsFinal : Obligations.EndOfRunIsFinal :=
  fun s k hc hp hq => ⟨s, run_of_step_eq_self (quiescentBlockStays s hc hp hq) k, rfl⟩

end Sys2Proof.Machine
end

section
/-! PROOF. What a transition that is no reset can do to the configuration, the block and the environment, said once as two
lists of moves, the host's and the engine's (`20_memory.md` R78, R83, R84), and the rules of the whole machine that follow
case by case: R30, R80, R137, R199, R200. -/

namespace Sys2Proof.Machine

/-! ## The host's side apart -/

/-- A state with another host's side: the pending events and the replies (log 1, log 8). -/
def withHost (g : HostSide) (s : State) : State := { s with host := g }

@[simp] theorem withHost_cfg (g : HostSide) (s : State) : (withHost g s).cfg = s.cfg := rfl
@[simp] theorem withHost_blk (g : HostSide) (s : State) : (withHost g s).blk = s.blk := rfl
@[simp] theorem withHost_env (g : HostSide) (s : State) : (withHost g s).env = s.env := rfl

/-! ## The moves -/

/-- What a host access can do, but a reset (R76, R222 to R237). -/
inductive HostMove (s : State) : State → Prop where
  | stay : HostMove s s
  | illegal : HostMove s (illegalCmd s)
  | beginRun (r : Bool) (h : s.blk.pstate = .idle) :
      HostMove s { s with blk := { s.blk with run := r, pstate := .build } }
  | stop (h : s.blk.pstate = .idle ∨ s.blk.pstate = .wait) : HostMove s (enterTerminal .stopped s)
  | requestStop (h : s.blk.pstate = .build ∨ s.blk.pstate = .emit) :
      HostMove s { s with blk := { s.blk with stopReq := true } }

/-- What the engine's turn can do (R190 to R198). -/
inductive EngineMove (s : State) : State → Prop where
  | rest (h : s.blk.Quiescent) : EngineMove s s
  | endOfStream (h : s.blk.pstate = .build) (hread : pktRead s.env.stream s.blk.rdPos.toNat = .error .eos) :
      EngineMove s (enterTerminal .done s)
  | truncated (g : List Byte) (h : s.blk.pstate = .build)
      (hread : pktRead s.env.stream s.blk.rdPos.toNat = .error (.corrupt g)) :
      EngineMove s (enterTerminal .error (captureHeader g s))
  | load (p : List Byte) (pos' : Nat) (h : s.blk.pstate = .build) (hstream : s.env.StreamFits)
      (hread : pktRead s.env.stream s.blk.rdPos.toNat = .ok (p, pos')) : EngineMove s (loadPacket p pos' s)
  | sendPacket (h : s.blk.PacketPending) : EngineMove s (eEmitPkt s)
  | sendFrame (h : s.blk.FramePending) : EngineMove s (eEmitFrm s)
  | wake (h : s.blk.pstate = .wait) : EngineMove s (eWake s)

/-- A command but SRESET is a move of the host's. -/
theorem hostMove_of_exec {i : Instr} {s t : State} (h : exec i s = .next t) (hi : i ≠ .sreset) : HostMove s t := by
  rcases exec_cases h with ⟨rfl, _⟩ | ⟨rfl, _⟩ | ⟨r, rfl, hp, _⟩ | ⟨rfl, _, hp⟩ | ⟨rfl, _, hp⟩ | ⟨_, rfl⟩
  · exact .stay
  · exact .illegal
  · exact .beginRun r hp
  · exact .stop hp
  · exact .requestStop hp
  · exact absurd rfl hi

/-- The engine's turn is a move of the engine's. -/
theorem engineMove_of_engineTurn {s t : State} (h : engineTurn s = .next t) : EngineMove s t := by
  rcases engineTurn_cases h with ⟨rfl, hq⟩ | ⟨hp, hs, ⟨hr, rfl⟩ | ⟨g, hr, rfl⟩ | ⟨p, pos', hr, rfl⟩⟩ | ⟨hp, rfl⟩ |
    ⟨hp, rfl⟩ | ⟨hp, rfl⟩
  · exact .rest hq
  · exact .endOfStream hp hr
  · exact .truncated g hp hr
  · exact .load p pos' hp hs hr
  · exact .sendPacket hp
  · exact .sendFrame hp
  · exact .wake hp

/-- A move of the host's does not depend on the host's side. -/
theorem HostMove.of_withHost {s t : State} {g : HostSide} (h : HostMove (withHost g s) t) :
    ∃ u, HostMove s u ∧ t = withHost g u := by
  cases h with
  | stay => exact ⟨_, .stay, rfl⟩
  | illegal => exact ⟨_, .illegal, rfl⟩
  | beginRun r hp => exact ⟨_, .beginRun r hp, rfl⟩
  | stop hp => exact ⟨_, .stop hp, rfl⟩
  | requestStop hp => exact ⟨_, .requestStop hp, rfl⟩

/-- A move of the engine's does not depend on the host's side. -/
theorem EngineMove.of_withHost {s t : State} {g : HostSide} (h : EngineMove (withHost g s) t) :
    ∃ u, EngineMove s u ∧ t = withHost g u := by
  cases h with
  | rest hq => exact ⟨_, .rest hq, rfl⟩
  | endOfStream hp hr => exact ⟨_, .endOfStream hp hr, rfl⟩
  | truncated b hp hr => exact ⟨_, .truncated b hp hr, rfl⟩
  | load p pos' hp hs hr => exact ⟨_, .load p pos' hp hs hr, rfl⟩
  | sendPacket hp => exact ⟨_, .sendPacket hp, rfl⟩
  | sendFrame hp =>
    refine ⟨_, .sendFrame hp, ?_⟩
    rw [eEmitFrm_eq, eEmitFrm_eq]
    rfl
  | wake hp => exact ⟨_, .wake hp, rfl⟩

/-! ## Every step is a move or a reset -/

theorem nextIsReset_of_write {s : State} {addr width : Nat} {v : Word} {rest : List Event}
    (hp : s.host.pending = .access (.write addr width v) :: rest) :
    nextIsReset s = (accessTarget s.cfg addr width == .slot 0x00 && v == encode .sreset) := by
  simp only [nextIsReset, hp]

theorem nextIsReset_of_resetInput {s : State} {rest : List Event} (hp : s.host.pending = .resetInput :: rest) :
    nextIsReset s = true := by
  simp only [nextIsReset, hp]

/-- An engine's turn is neither a reset nor a host access. -/
theorem nextIs_of_engine {s u : State}
    (h : u = s ∧ s.host.pending = [] ∨ ∃ rest, s.host.pending = .engine :: rest ∧ u = setPending rest s) :
    nextIsReset s = false ∧ nextIsAccess s = false ∧ ∃ g, u = withHost g s := by
  rcases h with ⟨rfl, hp⟩ | ⟨rest, hp, rfl⟩
  · exact ⟨by simp only [nextIsReset, hp], by simp only [nextIsAccess, hp], u.host, rfl⟩
  · exact ⟨by simp only [nextIsReset, hp], by simp only [nextIsAccess, hp], _, rfl⟩

/-- What a step that is no reset can do: a move of the host's, or the engine's if no access is next. -/
theorem step_move {s t : State} (h : step s = .next t) (hr : nextIsReset s = false) :
    ∃ u g, t = withHost g u ∧ (HostMove s u ∨ nextIsAccess s = false ∧ EngineMove s u) := by
  obtain ⟨_, ⟨u, hu, hturn⟩ | ⟨rest, hp, _⟩ | ⟨rest, addr, width, v, hp, htarget, hwrite⟩ | ⟨rest, a, r, hp, rfl, _⟩⟩ :=
    step_cases h
  · obtain ⟨_, hacc, g, rfl⟩ := nextIs_of_engine hu
    obtain ⟨w, hw, rfl⟩ := (engineMove_of_engineTurn hturn).of_withHost
    exact ⟨w, g, rfl, .inr ⟨hacc, hw⟩⟩
  · rw [nextIsReset_of_resetInput hp] at hr
    cases hr
  · rcases hwrite with ⟨i, u, rfl, hexec, rfl⟩ | ⟨e, _, rfl⟩
    · have hi : i ≠ .sreset := by
        rintro rfl
        simp [nextIsReset_of_write hp, htarget] at hr
      obtain ⟨w, hw, rfl⟩ := (hostMove_of_exec hexec hi).of_withHost (g := { s.host with pending := rest }) (s := s)
      exact ⟨w, _, rfl, .inl hw⟩
    · exact ⟨illegalCmd s, _, rfl, .inl .illegal⟩
  · exact ⟨s, _, rfl, .inl .stay⟩

/-- What a reset does, by input or by command (R280). -/
theorem step_reset {s t : State} (h : step s = .next t) (hr : nextIsReset s = true) : ∃ g, t = withHost g (doReset s) := by
  obtain ⟨_, ⟨u, hu, _⟩ | ⟨rest, _, rfl⟩ | ⟨rest, addr, width, v, hp, _, hwrite⟩ | ⟨rest, a, r, hp, _, hother⟩⟩ := step_cases h
  · rw [(nextIs_of_engine hu).1] at hr
    cases hr
  · exact ⟨_, rfl⟩
  · have hv : v = encode .sreset := by
      rw [nextIsReset_of_write hp, Bool.and_eq_true, beq_iff_eq, beq_iff_eq] at hr
      exact hr.2
    have hd : decode v = .ok .sreset := decode_eq_ok.mpr hv
    rcases hwrite with ⟨i, u, rfl, hexec, rfl⟩ | ⟨e, he, _⟩
    · rw [decode_eq_ok.mpr rfl] at hd
      cases hd
      cases hexec
      exact ⟨_, rfl⟩
    · rw [hd] at he
      cases he
  · cases a with
    | read addr width => simp [nextIsReset, hp] at hr
    | write addr width v => simp [nextIsReset_of_write hp, hother addr width v rfl] at hr

/-! ## The host writes no data -/

/-- The frame of the host's moves: `PSTATE`, `RUN`, `STOP_REQ` and `ERR_CMD` are all it writes (R83, R200, R224). -/
theorem HostMove.frame {s t : State} (h : HostMove s t) :
    t.cfg = s.cfg ∧ t.env = s.env ∧ t.host = s.host ∧ t.freeCtr = s.freeCtr ∧
      t.blk = { s.blk with pstate := t.blk.pstate, run := t.blk.run, stopReq := t.blk.stopReq, errCmd := t.blk.errCmd } := by
  cases h <;> exact ⟨rfl, rfl, rfl, rfl, rfl⟩

/-- Settles O21: a command is a move of the host's, or `doReset`. -/
theorem commandsLeaveDataUnchanged : Obligations.CommandsLeaveDataUnchanged := by
  intro i s t h
  by_cases hi : i = .sreset
  · subst hi
    cases h
    refine ⟨rfl, rfl, rfl, ?_⟩
    rintro (h | h | h | h) <;> cases h
  · obtain ⟨hcfg, henv, hhost, hfree, hblk⟩ := (hostMove_of_exec h hi).frame
    exact ⟨hcfg, henv, hhost, fun _ => ⟨hfree, hblk⟩⟩

/-- Settles O54: such a step is a move of the host's. -/
theorem hostCannotWriteData : Obligations.HostCannotWriteData := by
  intro s t hacc hr h
  obtain ⟨u, g, rfl, hmove | ⟨hnot, _⟩⟩ := step_move h hr
  · obtain ⟨hcfg, henv, _, _, hblk⟩ := hmove.frame
    exact ⟨hcfg, henv, hblk⟩
  · rw [hacc] at hnot
    cases hnot

/-! ## Terminal states and ERR_CMD -/

/-- In a terminal state an access changes at most `ERR_CMD` (R261). -/
theorem HostMove.of_terminal {s t : State} (h : HostMove s t) (hterm : s.blk.pstate.Terminal) : t = s ∨ t = illegalCmd s := by
  cases h with
  | stay => exact .inl rfl
  | illegal => exact .inr rfl
  | beginRun r hp => simp [PState.Terminal, hp] at hterm
  | stop hp => rcases hp with hp | hp <;> simp [PState.Terminal, hp] at hterm
  | requestStop hp => rcases hp with hp | hp <;> simp [PState.Terminal, hp] at hterm

/-- In a terminal state the engine does nothing (R199). -/
theorem EngineMove.of_terminal {s t : State} (h : EngineMove s t) (hterm : s.blk.pstate.Terminal) : t = s := by
  cases h with
  | rest => rfl
  | endOfStream hp => simp [PState.Terminal, hp] at hterm
  | truncated g hp => simp [PState.Terminal, hp] at hterm
  | load p pos' hp => simp [PState.Terminal, hp] at hterm
  | sendPacket hp => simp [PState.Terminal, hp.1] at hterm
  | sendFrame hp => simp [PState.Terminal, hp.1] at hterm
  | wake hp => simp [PState.Terminal, hp] at hterm

/-- Settles O52: of all moves only rest and the illegal command start in a terminal state. -/
theorem terminalLeftOnlyByReset : Obligations.TerminalLeftOnlyByReset := by
  intro s t hterm hr h
  obtain ⟨u, g, rfl, hmove | ⟨_, hmove⟩⟩ := step_move h hr
  · rcases hmove.of_terminal hterm with rfl | rfl
    · exact ⟨rfl, rfl, rfl⟩
    · exact ⟨rfl, rfl, rfl⟩
  · obtain rfl := hmove.of_terminal hterm
    exact ⟨rfl, rfl, rfl⟩

/-- The host's moves keep a set `ERR_CMD` (R30). -/
theorem HostMove.errCmd {s t : State} (h : HostMove s t) (he : s.blk.errCmd = true) : t.blk.errCmd = true := by
  cases h with
  | illegal => rfl
  | _ => exact he

/-- The engine does not write `ERR_CMD` (R30). -/
theorem EngineMove.errCmd {s t : State} (h : EngineMove s t) : t.blk.errCmd = s.blk.errCmd := by
  cases h with
  | sendFrame => rw [eEmitFrm_eq]
  | _ => rfl

/-- Settles O53: no move clears `ERR_CMD`. -/
theorem errCmdSticky : Obligations.ErrCmdSticky := by
  intro s t he hr h
  obtain ⟨u, g, rfl, hmove | ⟨_, hmove⟩⟩ := step_move h hr
  · exact hmove.errCmd he
  · exact hmove.errCmd.trans he

/-! ## Ports, counters and the read position -/

/-- What the engine does to the configuration, the ports and the counters: one emission counted, or nothing (R80, R200). -/
theorem EngineMove.ports {s t : State} (h : EngineMove s t) :
    t.cfg = s.cfg ∧ t.env.stream = s.env.stream ∧
      ((t.env.pktOut = s.env.pktOut ∧ t.env.frmOut = s.env.frmOut ∧
          t.blk.tmPktCnt = s.blk.tmPktCnt ∧ t.blk.tmFrameCnt = s.blk.tmFrameCnt) ∨
        (t.env.pktOut = s.env.pktOut ++ [s.blk.pktBuf] ∧ t.env.frmOut = s.env.frmOut ∧
          t.blk.tmPktCnt = s.blk.tmPktCnt + 1 ∧ t.blk.tmFrameCnt = s.blk.tmFrameCnt) ∨
        (t.env.pktOut = s.env.pktOut ∧ t.env.frmOut = s.env.frmOut ++ [s.blk.frmBuf] ∧
          t.blk.tmPktCnt = s.blk.tmPktCnt ∧ t.blk.tmFrameCnt = s.blk.tmFrameCnt + 1)) := by
  cases h with
  | sendPacket => exact ⟨rfl, rfl, .inr (.inl ⟨rfl, rfl, rfl, rfl⟩)⟩
  | sendFrame =>
    rw [eEmitFrm_eq]
    by_cases hbres : s.blk.bres = .ok
    · simp [hbres]
    · simp [hbres]
  | _ => exact ⟨rfl, rfl, .inl ⟨rfl, rfl, rfl, rfl⟩⟩

/-- Settles O55: a reset and the host leave the ports alone, and the engine emits one message at most. -/
theorem portsAppendOnly : Obligations.PortsAppendOnly := by
  intro s t h
  cases hr : nextIsReset s with
  | true =>
    obtain ⟨g, rfl⟩ := step_reset h hr
    exact ⟨rfl, rfl, .inl ⟨rfl, rfl⟩⟩
  | false =>
    obtain ⟨u, g, rfl, hmove | ⟨_, hmove⟩⟩ := step_move h hr
    · obtain ⟨hcfg, henv, _⟩ := hmove.frame
      simp [hcfg, henv]
    · obtain ⟨hcfg, hstream, ⟨hpkt, hfrm, _⟩ | ⟨hpkt, hfrm, _⟩ | ⟨hpkt, hfrm, _⟩⟩ := hmove.ports
      · exact ⟨hcfg, hstream, .inl ⟨hpkt, hfrm⟩⟩
      · exact ⟨hcfg, hstream, .inr (.inl ⟨hpkt, hfrm⟩)⟩
      · exact ⟨hcfg, hstream, .inr (.inr ⟨hpkt, hfrm⟩)⟩

/-- Settles O56: in each of the engine's three cases a port gains as many messages as its counter counts. -/
theorem countersMoveWithEmissions : Obligations.CountersMoveWithEmissions := by
  intro s t hr h
  obtain ⟨u, g, rfl, hmove | ⟨_, hmove⟩⟩ := step_move h hr
  · obtain ⟨_, henv, _, _, hblk⟩ := hmove.frame
    rw [withHost_blk, withHost_env, henv, hblk]
    simp
  · obtain ⟨_, _, ⟨hpkt, hfrm, hpktCnt, hfrmCnt⟩ | ⟨hpkt, hfrm, hpktCnt, hfrmCnt⟩ | ⟨hpkt, hfrm, hpktCnt, hfrmCnt⟩⟩ :=
      hmove.ports
    all_goals simp [hpkt, hfrm, hpktCnt, hfrmCnt]

/-- The engine moves the read position only past a packet that it reads (R24, R137). -/
theorem EngineMove.rdPos {s t : State} (h : EngineMove s t) : t.blk.rdPos = s.blk.rdPos ∨
    s.blk.pstate = .build ∧ ∃ p, pktRead s.env.stream s.blk.rdPos.toNat = .ok (p, t.blk.rdPos.toNat) ∧ t.blk.pktBuf = p := by
  cases h with
  | load p pos' hp hstream hread =>
    have hpos : (loadPacket p pos' s).blk.rdPos.toNat = pos' := rdPos_exact hstream hread
    exact .inr ⟨hp, p, by rw [hpos, hread], rfl⟩
  | sendFrame => exact .inl (by rw [eEmitFrm_eq])
  | _ => exact .inl rfl

/-- Settles O57: only the engine's load of a packet writes `RD_POS`. -/
theorem readPositionMovesPastPackets : Obligations.ReadPositionMovesPastPackets := by
  intro s t hr h hne
  obtain ⟨u, g, rfl, hmove | ⟨_, hmove⟩⟩ := step_move h hr
  · obtain ⟨_, _, _, _, hblk⟩ := hmove.frame
    rw [withHost_blk, hblk] at hne
    exact absurd rfl hne
  · exact hmove.rdPos.resolve_left hne

end Sys2Proof.Machine
end

section
/-! PROOF. The machine's invariant (`10_state.md` R40, R32, R290): it holds at reset (R41), and every move and every reset keeps
it. Outside `EMIT` most of it asks nothing; in `EMIT` it is what `E_BUILD` has established. -/

namespace Sys2Proof.Machine

/-! ## The block's invariant outside EMIT -/

/-- Outside `EMIT` only the flags, the sub-phase and the read position are constrained. -/
theorem BlockInv.of_not_emit {s : State} (hp : s.blk.pstate ≠ .emit) (hstop : s.blk.stopReq = true → s.blk.pstate = .build)
    (hrun : s.blk.run = true → s.blk.pstate = .build ∨ s.blk.pstate = .wait)
    (hwait : s.blk.pstate = .wait → s.blk.run = true) (hphase : s.blk.ephase = .pkt)
    (hpos : s.blk.rdPos.toNat ≤ s.env.stream.length) : BlockInv s where
  stopReq h := .inl (hstop h)
  run h := (hrun h).imp_right .inr
  wait := hwait
  bres h := absurd h hp
  frmBuf h := absurd h hp
  pktBuf h := absurd h hp
  captures h := absurd h hp
  ephase _ := hphase
  rdPos := hpos

/-- Where the engine is neither in `EMIT` nor in `WAIT`, cleared flags are always right (R39). -/
theorem BlockInv.of_cleared {s : State} (hemit : s.blk.pstate ≠ .emit) (hwait : s.blk.pstate ≠ .wait)
    (hrun : s.blk.run = false) (hstop : s.blk.stopReq = false) (hphase : s.blk.ephase = .pkt)
    (hpos : s.blk.rdPos.toNat ≤ s.env.stream.length) : BlockInv s :=
  .of_not_emit hemit (by simp [hstop]) (by simp [hrun]) (fun h => absurd h hwait) hphase hpos

theorem machineInv_withHost {s : State} (g : HostSide) (h : MachineInv s) : MachineInv (withHost g s) :=
  have ⟨hstop, hrun, hwait, hbres, hfrm, hpkt, hcapt, hphase, hpos⟩ := h.blk
  ⟨h.cfg, h.env, ⟨hstop, hrun, hwait, hbres, hfrm, hpkt, hcapt, hphase, hpos⟩⟩

/-! ## Reset -/

theorem machineInv_doReset {s : State} (h : MachineInv s) : MachineInv (doReset s) :=
  ⟨h.cfg, h.env, .of_cleared (by simp) (by simp) rfl rfl rfl (by simp)⟩

theorem machineInv_resetWith {c : Config} {S : List Byte} (hc : c.Legal) (hS : S.length ≤ 2 ^ 32 - 1) :
    MachineInv (State.resetWith c S) :=
  ⟨hc, envWf_resetWith c hS, .of_cleared (by simp [State.resetWith, Block.reset]) (by simp [State.resetWith, Block.reset])
    rfl rfl rfl (Nat.zero_le _)⟩

/-- Settles O41: the items of `Block.reset`, whose `STATUS` word has every field 0. -/
theorem resetValues : Obligations.ResetValues := by
  rintro c S b rfl
  exact ⟨rfl, rfl, rfl, rfl, rfl, rfl, rfl, rfl, rfl, rfl, rfl, rfl, rfl, statusWord_reset c⟩

/-- Settles O46: at reset the flags are clear and `RD_POS` is 0; the example configuration is legal. -/
theorem invariantAtReset : Obligations.InvariantAtReset :=
  ⟨machineInv_resetWith (by decide) (by decide), fun _ _ => machineInv_resetWith⟩

/-! ## The host's moves -/

/-- The host's moves keep the invariant: they write flags and `PSTATE`, and never into `EMIT` or `WAIT`. -/
theorem HostMove.machineInv {s t : State} (h : HostMove s t) (hs : MachineInv s) : MachineInv t := by
  obtain ⟨hcfg, henv, hblk⟩ := hs
  have ⟨hstop, hrun, hwait, hbres, hfrm, hpkt, hcapt, hphase, hpos⟩ := hblk
  cases h with
  | stay => exact ⟨hcfg, henv, hblk⟩
  | illegal => exact ⟨hcfg, henv, ⟨hstop, hrun, hwait, hbres, hfrm, hpkt, hcapt, hphase, hpos⟩⟩
  | beginRun r hp =>
    exact ⟨hcfg, henv, .of_not_emit (by simp) (fun _ => rfl) (fun _ => .inl rfl) (by simp) (hphase (by simp [hp])) hpos⟩
  | stop hp =>
    have hphase' : s.blk.ephase = .pkt := hphase (by rcases hp with hp | hp <;> simp [hp])
    exact ⟨hcfg, henv, .of_cleared (by simp) (by simp) rfl rfl hphase' hpos⟩
  | requestStop hp =>
    exact ⟨hcfg, henv, ⟨fun _ => hp, hrun, hwait, hbres, hfrm, hpkt, hcapt, hphase, hpos⟩⟩

/-! ## The engine's moves -/

/-- `BRES = OK` in `EMIT` says that the current packet's frame is in `FRM_BUF` (R40.3). -/
theorem BlockInv.currentBuild_of_bres_ok {s : State} (h : BlockInv s) (hp : s.blk.pstate = .emit) (hbres : s.blk.bres = .ok) :
    currentBuild s = .ok s.blk.frmBuf := by
  cases hb : currentBuild s with
  | ok f => rw [h.frmBuf hp f hb]
  | error e =>
    rw [h.bres hp, hb] at hbres
    exact absurd hbres (recordedResult_error_ne_ok e)

/-- `E_BUILD` on a packet establishes what `EMIT` needs (R40.3, R290). -/
theorem machineInv_loadPacket {s : State} {p : List Byte} {pos' : Nat} (hs : MachineInv s)
    (hread : pktRead s.env.stream s.blk.rdPos.toNat = .ok (p, pos')) : MachineInv (loadPacket p pos' s) := by
  have hpos : (loadPacket p pos' s).blk.rdPos.toNat = pos' := rdPos_exact hs.env.stream hread
  refine ⟨hs.cfg, hs.env, ?_⟩
  exact {
    stopReq := fun _ => .inr rfl
    run := fun _ => .inr (.inl rfl)
    wait := fun h => nomatch (show PState.emit = .wait from h)
    bres := fun _ => rfl
    frmBuf := fun _ _ hf => loadPacket_frmBuf pos' hf
    pktBuf := fun _ => ⟨s.blk.rdPos.toNat, by rw [hpos]; exact hread⟩
    captures := fun _ => captureHeader_toNat p s
    ephase := fun h => absurd rfl h
    rdPos := by rw [hpos]; exact (pktRead_eq_ok.mp hread).2.1 }

/-- The packet phase emits the packet that was read, whose length is legal (R23, R136). -/
theorem machineInv_eEmitPkt {s : State} (hs : MachineInv s) (hp : s.blk.PacketPending) : MachineInv (eEmitPkt s) := by
  obtain ⟨hcfg, henv, ⟨hstop, hrun, hwait, hbres, hfrm, hpkt, hcapt, _, hpos⟩⟩ := hs
  obtain ⟨pos, hread⟩ := hpkt hp.1
  obtain ⟨hmin, hmax, _⟩ := pktRead_length hread
  exact ⟨hcfg, envWf_emitPkt henv ⟨hmin, hmax⟩,
    ⟨hstop, hrun, hwait, hbres, hfrm, hpkt, hcapt, fun h => absurd hp.1 h, hpos⟩⟩

/-- The frame phase ends the iteration outside `EMIT` (R197). -/
theorem eEmitFrm_pstate_ne_emit (s : State) : (eEmitFrm s).blk.pstate ≠ .emit := by
  rw [eEmitFrm_eq]
  simp only
  split_ifs <;> simp

/-- The frame phase emits the frame of that packet, whose length is `FRAME_LEN`, and leaves `EMIT` (R180, R197). -/
theorem machineInv_eEmitFrm {s : State} (hs : MachineInv s) (hp : s.blk.FramePending) : MachineInv (eEmitFrm s) := by
  obtain ⟨hcfg, henv, hblk⟩ := hs
  have hleft := eEmitFrm_pstate_ne_emit s
  rw [eEmitFrm_eq] at hleft ⊢
  refine ⟨hcfg, ?_, .of_not_emit hleft (by simp) ?_ ?_ rfl hblk.rdPos⟩
  · by_cases hbres : s.blk.bres = .ok
    · simp only [if_pos hbres]
      exact envWf_emitFrm henv (buildFrame_length (hblk.currentBuild_of_bres_ok hp.1 hbres))
    · simp only [if_neg hbres]
      exact henv
  all_goals
    simp only
    split_ifs <;> simp_all

/-- The engine's moves keep the invariant. -/
theorem EngineMove.machineInv {s t : State} (h : EngineMove s t) (hs : MachineInv s) : MachineInv t := by
  have ⟨hcfg, henv, hblk⟩ := hs
  cases h with
  | rest => exact hs
  | endOfStream hp =>
    exact ⟨hcfg, henv, .of_cleared (by simp) (by simp) rfl rfl (hblk.ephase (by simp [hp])) hblk.rdPos⟩
  | truncated g hp =>
    exact ⟨hcfg, henv, .of_cleared (by simp) (by simp) rfl rfl (hblk.ephase (by simp [hp])) hblk.rdPos⟩
  | load p pos' _ _ hread => exact machineInv_loadPacket hs hread
  | sendPacket hp => exact machineInv_eEmitPkt hs hp
  | sendFrame hp => exact machineInv_eEmitFrm hs hp
  | wake hp =>
    exact ⟨hcfg, henv, .of_not_emit (by simp [eWake]) (fun _ => rfl) (fun _ => .inl rfl) (by simp [eWake])
      (hblk.ephase (by simp [hp])) hblk.rdPos⟩

/-- Settles O47: a step is a reset, a move of the host's or a move of the engine's, and each keeps the invariant. -/
theorem invariantKept : Obligations.InvariantKept := by
  intro s t hs h
  cases hr : nextIsReset s with
  | true =>
    obtain ⟨g, rfl⟩ := step_reset h hr
    exact machineInv_withHost g (machineInv_doReset hs)
  | false =>
    obtain ⟨u, g, rfl, hmove | ⟨_, hmove⟩⟩ := step_move h hr
    · exact machineInv_withHost g (hmove.machineInv hs)
    · exact machineInv_withHost g (hmove.machineInv hs)

end Sys2Proof.Machine
end

section
/-! PROOF. The history since a reset (`10_state.md` R40, R41; `43_producer.md` R201, R202): a reset begins one, and every
move continues it. Three moves write what it speaks of: loading a packet, emitting it, and emitting its frame. -/

namespace Sys2Proof.Machine

theorem history_withHost {m n : Nat} {s : State} (g : HostSide) (h : History m n s) : History m n (withHost g s) :=
  have ⟨hpktMark, hfrmMark, hpktCount, hfrmCount, hlast, hframes, hbytes⟩ := h
  ⟨hpktMark, hfrmMark, hpktCount, hfrmCount, hlast, hframes, hbytes⟩

/-! ## The beginning -/

/-- In `IDLE` with the counters and the read position at 0 a history begins at the messages on the ports (R41). -/
theorem history_of_reset {s : State} (hp : s.blk.pstate = .idle) (hpkt : s.blk.tmPktCnt = 0) (hfrm : s.blk.tmFrameCnt = 0)
    (hpos : s.blk.rdPos = 0) : History s.env.pktOut.length s.env.frmOut.length s := by
  have hpackets : packetsSince s.env.pktOut.length s = [] := List.drop_length
  have hframes : framesSince s.env.frmOut.length s = [] := List.drop_length
  have hnot : ¬ s.blk.FramePending := by simp [hp]
  have hunsent : unsentPacket s = [] := if_neg (by simp [hp])
  exact {
    pktMark := le_rfl
    frmMark := le_rfl
    pktCount := by rw [hpackets, hpkt]; rfl
    frmCount := by rw [hframes, hfrm]; rfl
    lastPacket := fun h => absurd h hnot
    frames := by rw [framedPackets_of_not_framePending _ hnot, hpackets, hframes]; rfl
    bytes := by rw [hpackets, hunsent, hpos]; rfl }

/-- Settles O48: both kinds of reset zero the counters and the read position and leave the ports alone. -/
theorem historyBeginsAtReset : Obligations.HistoryBeginsAtReset := by
  refine ⟨fun s t hr h => ?_, fun c S => history_of_reset (s := State.resetWith c S) rfl rfl rfl rfl⟩
  obtain ⟨g, rfl⟩ := step_reset h hr
  exact history_withHost g (history_of_reset (s := doReset s) rfl rfl rfl rfl)

/-! ## Moves that write nothing the history speaks of -/

/-- Flags, captures and a state on the same side of `EMIT` do not enter the history. -/
theorem History.of_same_data {m n : Nat} {s t : State} (h : History m n s) (hcfg : t.cfg = s.cfg) (henv : t.env = s.env)
    (hblk : t.blk = { s.blk with
      pstate := t.blk.pstate, run := t.blk.run, stopReq := t.blk.stopReq, errCmd := t.blk.errCmd
      hdrId := t.blk.hdrId, hdrSeq := t.blk.hdrSeq, hdrLen := t.blk.hdrLen })
    (hemit : t.blk.pstate = .emit ↔ s.blk.pstate = .emit) : History m n t := by
  have hphase : t.blk.ephase = s.blk.ephase := by rw [hblk]
  have hbuf : t.blk.pktBuf = s.blk.pktBuf := by rw [hblk]
  have hpackets : packetsSince m t = packetsSince m s := by rw [packetsSince, henv, packetsSince]
  have hframes : framesSince n t = framesSince n s := by rw [framesSince, henv, framesSince]
  have hframed : framedPackets m t = framedPackets m s := by
    simp only [framedPackets, framePending_iff, hphase, hemit, hpackets]
  have hunsent : unsentPacket t = unsentPacket s := by
    simp only [unsentPacket, packetPending_iff, hphase, hemit, hbuf]
  exact {
    pktMark := henv ▸ h.pktMark
    frmMark := henv ▸ h.frmMark
    pktCount := by rw [hblk, hpackets]; exact h.pktCount
    frmCount := by rw [hblk, hframes]; exact h.frmCount
    lastPacket := by rw [framePending_iff, hphase, hemit, hpackets, hbuf]; exact h.lastPacket
    frames := by rw [hframes, hframed, hcfg]; exact h.frames
    bytes := by rw [hpackets, hunsent, henv, hblk]; exact h.bytes }

/-- The host's moves continue the history. -/
theorem HostMove.history {m n : Nat} {s t : State} (h : HostMove s t) (hs : History m n s) : History m n t := by
  cases h with
  | stay => exact hs
  | illegal => exact hs.of_same_data rfl rfl rfl Iff.rfl
  | beginRun r hp => exact hs.of_same_data rfl rfl rfl (by simp [hp])
  | stop hp => exact hs.of_same_data rfl rfl rfl (by rcases hp with hp | hp <;> simp [hp])
  | requestStop => exact hs.of_same_data rfl rfl rfl Iff.rfl

/-! ## The three moves of an iteration -/

/-- The packet that is loaded is the stream's next bytes, and is not yet emitted (R24, R135). -/
theorem history_loadPacket {m n : Nat} {s : State} {p : List Byte} {pos' : Nat} (h : History m n s)
    (hp : s.blk.pstate = .build) (hstream : s.env.StreamFits)
    (hread : pktRead s.env.stream s.blk.rdPos.toNat = .ok (p, pos')) : History m n (loadPacket p pos' s) := by
  have hbefore : ¬ s.blk.FramePending := by simp [hp]
  have hafter : ¬ (loadPacket p pos' s).blk.FramePending := fun hf => nomatch (show EPhase.pkt = .frm from hf.2)
  have hpos : (loadPacket p pos' s).blk.rdPos.toNat = pos' := rdPos_exact hstream hread
  have hunsent : unsentPacket s = [] := if_neg (by simp [hp])
  have hunsent' : unsentPacket (loadPacket p pos' s) = p := if_pos ⟨rfl, rfl⟩
  have hbytes := h.bytes
  obtain ⟨hnext, _, hslice⟩ := pktRead_eq_ok.mp hread
  rw [hunsent, List.append_nil] at hbytes
  exact {
    pktMark := h.pktMark
    frmMark := h.frmMark
    pktCount := h.pktCount
    frmCount := h.frmCount
    lastPacket := fun hf => absurd hf hafter
    frames := by
      rw [framedPackets_of_not_framePending m hafter]
      exact h.frames.trans (by rw [framedPackets_of_not_framePending m hbefore]; rfl)
    bytes := by
      rw [hunsent', hpos]
      calc (packetsSince m s).flatten ++ p
          = s.env.stream.take s.blk.rdPos.toNat ++ slice s.env.stream s.blk.rdPos.toNat pos' := by rw [hbytes, ← hslice]
        _ = s.env.stream.take pos' := take_append_slice _ (by omega) }

/-- The emitted packet is the last one, counted, and its frame phase remains (R195). -/
theorem history_eEmitPkt {m n : Nat} {s : State} (h : History m n s) (hp : s.blk.PacketPending) :
    History m n (eEmitPkt s) := by
  have hpackets : packetsSince m (eEmitPkt s) = packetsSince m s ++ [s.blk.pktBuf] :=
    List.drop_append_of_le_length h.pktMark
  have hbefore : ¬ s.blk.FramePending := by simp [hp.2]
  have hafter : (eEmitPkt s).blk.FramePending := ⟨hp.1, rfl⟩
  have hunsent : unsentPacket s = s.blk.pktBuf := if_pos hp
  have hunsent' : unsentPacket (eEmitPkt s) = [] := if_neg fun hq => nomatch (show EPhase.frm = .pkt from hq.2)
  have hbytes := h.bytes
  have hframes := h.frames
  rw [hunsent] at hbytes
  rw [framedPackets_of_not_framePending m hbefore] at hframes
  exact {
    pktMark := by
      rw [show (eEmitPkt s).env.pktOut = s.env.pktOut ++ [s.blk.pktBuf] from rfl, List.length_append]
      exact Nat.le_add_right_of_le h.pktMark
    frmMark := h.frmMark
    pktCount := by
      rw [hpackets, List.length_append, BitVec.ofNat_add, ← h.pktCount]
      rfl
    frmCount := h.frmCount
    lastPacket := fun _ => by rw [hpackets, List.getLast?_concat]; rfl
    frames := by
      rw [framedPackets_of_framePending m hafter, hpackets, List.dropLast_concat]
      exact hframes
    bytes := by
      rw [hpackets, hunsent', List.flatten_append, List.flatten_singleton, List.append_nil]
      exact hbytes }

/-- The number of the current build is the number of frames emitted so far (R192, R201). -/
theorem History.currentBuild_eq {m n : Nat} {s : State} (h : History m n s) :
    currentBuild s = buildFrame s.cfg s.blk.pktBuf ((framesSince n s).length % 2 ^ 24) := by
  have hnumber : s.blk.tmFrameCnt.toNat % 2 ^ 24 = (framesSince n s).length % 2 ^ 24 := by
    rw [h.frmCount, BitVec.toNat_ofNat]
    omega
  rw [currentBuild, hnumber]

/-- In the frame phase the frames due are those emitted, and the current packet's (R196, R201). -/
theorem History.framesFrom_packetsSince {m n : Nat} {s : State} (h : History m n s) (hp : s.blk.FramePending) :
    framesFrom s.cfg 0 (packetsSince m s) =
      framesSince n s ++ framesFrom s.cfg (framesSince n s).length [s.blk.pktBuf] := by
  have hframes := h.frames
  rw [framedPackets_of_framePending m hp] at hframes
  rw [← List.dropLast_append_getLast? _ (h.lastPacket hp), framesFrom_append, ← hframes, Nat.zero_add]

/-- The frame phase emits the current packet's frame if it has one, and counts it (R196, R201). -/
theorem History.eEmitFrm_frames {m n : Nat} {s : State} (h : History m n s) (hinv : BlockInv s) (hp : s.blk.FramePending) :
    (eEmitFrm s).env.frmOut = s.env.frmOut ++ framesFrom s.cfg (framesSince n s).length [s.blk.pktBuf] ∧
      (eEmitFrm s).blk.tmFrameCnt = s.blk.tmFrameCnt +
        BitVec.ofNat 32 (framesFrom s.cfg (framesSince n s).length [s.blk.pktBuf]).length := by
  have hbuild := h.currentBuild_eq
  rw [eEmitFrm_eq]
  cases hb : currentBuild s with
  | ok f =>
    have hbres : s.blk.bres = .ok := by rw [hinv.bres hp.1, hb, recordedResult]
    have hbuf : s.blk.frmBuf = f := hinv.frmBuf hp.1 f hb
    rw [framesFrom_cons_ok [] (hbuild.symm.trans hb), framesFrom]
    simp [hbres, hbuf]
  | error e =>
    have hbres : s.blk.bres ≠ .ok := by rw [hinv.bres hp.1, hb]; exact recordedResult_error_ne_ok e
    rw [framesFrom_cons_error [] (hbuild.symm.trans hb), framesFrom]
    simp [hbres]

/-- After the frame phase every packet's frame phase is over (R196, R197). -/
theorem history_eEmitFrm {m n : Nat} {s : State} (h : History m n s) (hinv : BlockInv s) (hp : s.blk.FramePending) :
    History m n (eEmitFrm s) := by
  obtain ⟨hfrmOut, hfrmCnt⟩ := h.eEmitFrm_frames hinv hp
  have hpackets : packetsSince m (eEmitFrm s) = packetsSince m s := by rw [packetsSince, eEmitFrm_eq, packetsSince]
  have hframes : framesSince n (eEmitFrm s) =
      framesSince n s ++ framesFrom s.cfg (framesSince n s).length [s.blk.pktBuf] := by
    rw [framesSince, hfrmOut, List.drop_append_of_le_length h.frmMark, ← framesSince]
  have hafter : ¬ (eEmitFrm s).blk.FramePending := fun hf => eEmitFrm_pstate_ne_emit s hf.1
  have hunsent : unsentPacket s = [] := if_neg (by simp [hp.2])
  have hunsent' : unsentPacket (eEmitFrm s) = [] := if_neg fun hq => eEmitFrm_pstate_ne_emit s hq.1
  have hbytes := h.bytes
  rw [hunsent] at hbytes
  exact {
    pktMark := by rw [eEmitFrm_eq]; exact h.pktMark
    frmMark := by rw [hfrmOut, List.length_append]; exact Nat.le_add_right_of_le h.frmMark
    pktCount := by rw [hpackets, ← h.pktCount, eEmitFrm_eq]
    frmCount := by rw [hframes, List.length_append, BitVec.ofNat_add, ← h.frmCount, hfrmCnt]
    lastPacket := fun hf => absurd hf hafter
    frames := by
      rw [hframes, framedPackets_of_not_framePending m hafter, hpackets, ← h.framesFrom_packetsSince hp, eEmitFrm_eq]
    bytes := by rw [hpackets, hunsent', hbytes, eEmitFrm_eq] }

/-- The engine's moves continue the history. -/
theorem EngineMove.history {m n : Nat} {s t : State} (h : EngineMove s t) (hinv : BlockInv s) (hs : History m n s) :
    History m n t := by
  cases h with
  | rest => exact hs
  | endOfStream hp => exact hs.of_same_data rfl rfl rfl (by simp [hp])
  | truncated g hp => exact hs.of_same_data rfl rfl rfl (by simp [hp])
  | load p pos' hp hstream hread => exact history_loadPacket hs hp hstream hread
  | sendPacket hp => exact history_eEmitPkt hs hp
  | sendFrame hp => exact history_eEmitFrm hs hinv hp
  | wake hp => exact hs.of_same_data rfl rfl rfl (by simp [eWake, hp])

/-- Settles O49: a step that is no reset is a move, and every move continues the history. -/
theorem historyKept : Obligations.HistoryKept := by
  intro m n s t hinv hs hr h
  obtain ⟨u, g, rfl, hmove | ⟨_, hmove⟩⟩ := step_move h hr
  · exact history_withHost g (hmove.history hs)
  · exact history_withHost g (hmove.history hinv.blk hs)

end Sys2Proof.Machine
end

section
/-! PROOF. A free run ends (`43_producer.md` R203): each iteration takes four steps and at least 7 bytes of the stream. -/

namespace Sys2Proof.Machine

/-- With no event pending, three steps make the iteration of a packet (R190). -/
theorem run_iteration {s : State} {p : List Byte} {pos' : Nat} (hs : MachineInv s) (hpend : s.host.pending = [])
    (hstate : s.blk.pstate = .build) (hread : pktRead s.env.stream s.blk.rdPos.toNat = .ok (p, pos')) (k : Nat) :
    Host.Core.run Sys2Proof.core (k + 3) s = Host.Core.run Sys2Proof.core k (iterationEnd p pos' s) := by
  obtain ⟨h1, h2, h3⟩ := engineTurns_of_packet hstate hs.env.stream hread
  rw [run_succ_of_step ((step_of_no_event hs.cfg hpend).trans h1),
    run_succ_of_step ((step_of_no_event (s := loadPacket p pos' s) hs.cfg hpend).trans h2),
    run_succ_of_step ((step_of_no_event (s := eEmitPkt (loadPacket p pos' s)) hs.cfg hpend).trans h3)]

/-- The end of an iteration is reached by the engine's moves, so the invariant holds there. -/
theorem machineInv_iterationEnd {s : State} {p : List Byte} {pos' : Nat} (hs : MachineInv s)
    (hread : pktRead s.env.stream s.blk.rdPos.toNat = .ok (p, pos')) : MachineInv (iterationEnd p pos' s) :=
  machineInv_eEmitFrm (machineInv_eEmitPkt (machineInv_loadPacket hs hread) ⟨rfl, rfl⟩) ⟨rfl, rfl⟩

/-- In a free run that no STOP ends, four steps lead from `BUILD` to `BUILD` behind the packet (R197, R198). -/
theorem run_free_iteration {s : State} {p : List Byte} {pos' : Nat} (hs : MachineInv s) (hpend : s.host.pending = [])
    (hstate : s.blk.pstate = .build) (hrun : s.blk.run = true) (hstop : s.blk.stopReq = false)
    (hread : pktRead s.env.stream s.blk.rdPos.toNat = .ok (p, pos')) :
    ∃ u, MachineInv u ∧ u.host.pending = [] ∧ u.blk.pstate = .build ∧ u.blk.run = true ∧ u.env.stream = s.env.stream ∧
      u.blk.rdPos.toNat = pos' ∧ ∀ k, Host.Core.run Sys2Proof.core (k + 4) s = Host.Core.run Sys2Proof.core k u := by
  have hend := iterationEnd_eq p pos' s
  have hinv := machineInv_iterationEnd hs hread
  have hpend' : (iterationEnd p pos' s).host.pending = [] := by rw [hend]; exact hpend
  have hwait : (iterationEnd p pos' s).blk.pstate = .wait := by simp [hend, hstop, hrun]
  have hwake : step (iterationEnd p pos' s) = .next (eWake (iterationEnd p pos' s)) :=
    (step_of_no_event hinv.cfg hpend').trans (engineTurn_of_wait hwait)
  refine ⟨eWake (iterationEnd p pos' s), (EngineMove.wake hwait).machineInv hinv, hpend', rfl, ?_, ?_, ?_, fun k => ?_⟩
  · simp [eWake, hend, hstop, hrun]
  · simp [eWake, hend]
  · simp only [eWake, hend, loadPacket]
    exact rdPos_exact hs.env.stream hread
  · exact (run_iteration hs hpend hstate hread (k + 1)).trans (run_succ_of_step hwake k)

/-- Settles O58, by induction on how many packets of 7 bytes the bytes left could hold. -/
theorem freeRunReachesTerminalState : Obligations.FreeRunReachesTerminalState := by
  intro s hs hpend hstate hrun
  induction hleft : (s.env.stream.length - s.blk.rdPos.toNat) / 7 using Nat.strong_induction_on generalizing s with
  | _ left ih =>
  have hstep : step s = eBuild s := (step_of_no_event hs.cfg hpend).trans (engineTurn_of_build hstate)
  cases hread : pktRead s.env.stream s.blk.rdPos.toNat with
  | error e =>
    cases e with
    | eos => exact ⟨1, _, by omega, run_succ_of_step (hstep.trans (eBuild_eos hs.env.stream hread)) 0, .inl rfl⟩
    | corrupt g =>
      exact ⟨1, _, by omega, run_succ_of_step (hstep.trans (eBuild_corrupt hs.env.stream hread)) 0, .inr (.inl rfl)⟩
  | ok r =>
    obtain ⟨p, pos'⟩ := r
    obtain ⟨hmin, _, hnext⟩ := pktRead_length hread
    have hfits : pos' ≤ s.env.stream.length := (pktRead_eq_ok.mp hread).2.1
    cases hstop : s.blk.stopReq with
    | true =>
      refine ⟨3, iterationEnd p pos' s, by omega, run_iteration hs hpend hstate hread 0, .inr (.inr ?_)⟩
      simp [iterationEnd_eq, hstop]
    | false =>
      obtain ⟨u, hinv, hpend', hstate', hrun', hstream, hpos, hfour⟩ :=
        run_free_iteration hs hpend hstate hrun hstop hread
      obtain ⟨k, t, hk, hrunTo, hterm⟩ := ih _ (by rw [hstream, hpos]; omega) u hinv hpend' hstate' hrun' rfl
      rw [hstream, hpos] at hk
      exact ⟨k + 4, t, by omega, (hfour k).trans hrunTo, hterm⟩

end Sys2Proof.Machine
end
